-- ==== Sys2Proof/Word.lean ====
section
/-! DEFINITION. The words of SETLA-RU: the 32-bit word of the host port and of a command (R8, R80),
and the 25-bit coefficient slot (R21). -/

namespace Sys2Proof

/-- A word of the host port, and a command word: `XLEN` = 32 bits (R8, R80). -/
abbrev Word := BitVec 32

/-- One coefficient slot of a ring register: `QBITS` = 25 bits (R21). -/
abbrev Slot := BitVec 25

/-- The index of one of the `NREG` = 16 ring registers `R0` to `R15` (R8, R20, R83). -/
abbrev RegId := Fin 16

end Sys2Proof
end

