-- ==== Sys2Proof/Syntax.lean ====
section
/-! DEFINITION. The commands of SETLA-RU: one constructor per row of the opcode table (R85), and the
raw fields of a command word (R81). -/

namespace Sys2Proof

/-- A command (R85, R91). Register operands are the 4-bit indices of R83, so every value is legal;
the immediate of SAMPLEB is written as a number, as in the assembler form of R91, and `WellFormed`
says which numbers a command word can carry. -/
inductive Instr where
  /-- `ADD Rd, Rs1, Rs2` (R101) -/
  | add (rd rs1 rs2 : RegId)
  /-- `SUB Rd, Rs1, Rs2` (R102) -/
  | sub (rd rs1 rs2 : RegId)
  /-- `MUL Rd, Rs1, Rs2` (R103) -/
  | mul (rd rs1 rs2 : RegId)
  /-- `SAMPLEB Rd, imm` (R111) -/
  | sampleb (rd : RegId) (imm : Nat)
  /-- `SAMPLEU Rd` (R112) -/
  | sampleu (rd : RegId)
  /-- `COMPRESS Rd, Rs1` (R121) -/
  | compress (rd rs1 : RegId)
  /-- `CHASH Rd`, implicit source DIGEST (R131) -/
  | chash (rd : RegId)
  /-- `ENCODE Rd`, implicit source KEY (R141) -/
  | encode (rd : RegId)
  /-- `DECODE Rs1`, implicit destination KEY (R142) -/
  | decode (rs1 : RegId)
  deriving DecidableEq, Repr

/-- The five fields of a command word, each the unsigned number its bits form (R81). -/
structure CmdFields where
  op : Nat
  rd : Nat
  rs1 : Nat
  rs2 : Nat
  imm16 : Nat
  deriving DecidableEq, Repr

/-- The formats of R82. -/
inductive Format where
  /-- uses op, rd, rs1, rs2 -/
  | F3
  /-- uses op, rd, rs1 -/
  | F2
  /-- uses op, rd, imm16 -/
  | FI
  /-- uses op, rd -/
  | FD
  /-- uses op, rs1 -/
  | FS
  deriving DecidableEq, Repr

/-- The format of each command (R82, R85). -/
def Instr.format : Instr → Format
  | .add _ _ _ | .sub _ _ _ | .mul _ _ _ => .F3
  | .compress _ _ => .F2
  | .sampleb _ _ => .FI
  | .sampleu _ | .chash _ | .encode _ => .FD
  | .decode _ => .FS

/-- The opcode of each command (R85). -/
def Instr.opcode : Instr → Nat
  | .add _ _ _ => 0x1
  | .sub _ _ _ => 0x2
  | .mul _ _ _ => 0x3
  | .sampleb _ _ => 0x4
  | .sampleu _ => 0x5
  | .compress _ _ => 0x6
  | .chash _ => 0x7
  | .encode _ => 0x8
  | .decode _ => 0x9

/-- The mnemonic of each command, as the opcode table spells it (R85, R91). -/
def Instr.mnemonic : Instr → String
  | .add _ _ _ => "ADD"
  | .sub _ _ _ => "SUB"
  | .mul _ _ _ => "MUL"
  | .sampleb _ _ => "SAMPLEB"
  | .sampleu _ => "SAMPLEU"
  | .compress _ _ => "COMPRESS"
  | .chash _ => "CHASH"
  | .encode _ => "ENCODE"
  | .decode _ => "DECODE"

/-- The ring register a command writes, none for DECODE, which writes KEY (R82, R100 (b)). -/
def Instr.destReg : Instr → Option RegId
  | .add rd _ _ | .sub rd _ _ | .mul rd _ _ => some rd
  | .sampleb rd _ => some rd
  | .sampleu rd => some rd
  | .compress rd _ => some rd
  | .chash rd => some rd
  | .encode rd => some rd
  | .decode _ => none

/-- The sampling commands, whose result the entropy oracle supplies (R110, R115). -/
def Instr.samples : Instr → Bool
  | .sampleb _ _ | .sampleu _ => true
  | .add _ _ _ | .sub _ _ _ | .mul _ _ _ | .compress _ _ | .chash _ | .encode _ | .decode _ => false

/-- The assembler name of a ring register (R20, R91). -/
def RegId.asm (k : RegId) : String := "R" ++ toString k.val

/-- The assembler text of a command, destination first (R91). -/
def Instr.asm : Instr → String
  | .add rd rs1 rs2 => "ADD " ++ RegId.asm rd ++ ", " ++ RegId.asm rs1 ++ ", " ++ RegId.asm rs2
  | .sub rd rs1 rs2 => "SUB " ++ RegId.asm rd ++ ", " ++ RegId.asm rs1 ++ ", " ++ RegId.asm rs2
  | .mul rd rs1 rs2 => "MUL " ++ RegId.asm rd ++ ", " ++ RegId.asm rs1 ++ ", " ++ RegId.asm rs2
  | .sampleb rd imm => "SAMPLEB " ++ RegId.asm rd ++ ", " ++ toString imm
  | .sampleu rd => "SAMPLEU " ++ RegId.asm rd
  | .compress rd rs1 => "COMPRESS " ++ RegId.asm rd ++ ", " ++ RegId.asm rs1
  | .chash rd => "CHASH " ++ RegId.asm rd
  | .encode rd => "ENCODE " ++ RegId.asm rd
  | .decode rs1 => "DECODE " ++ RegId.asm rs1

/-- The pseudo-instruction `CLR Rd`, which is `SUB Rd, Rd, Rd` (R92). -/
def Instr.clr (rd : RegId) : Instr := .sub rd rd rd

end Sys2Proof
end

