-- ==== Sys2Proof/WellFormed.lean ====
section
/-! DEFINITION. What the encoding admits: the immediate of SAMPLEB fits its field (R84, R91), the
fields of a command word fit their bits (R81), and a field the format does not use is zero (R82,
R87). -/

namespace Sys2Proof

/-- The format an opcode has, none for a reserved opcode (R82, R85, R89 (a)). -/
def formatOfOpcode (op : Nat) : Option Format :=
  match op with
  | 1 | 2 | 3 => some .F3
  | 4 => some .FI
  | 5 | 7 | 8 => some .FD
  | 6 => some .F2
  | 9 => some .FS
  | _ => none

/-- Every number lies in the range its field's bits can hold (R81). -/
def CmdFields.inRange (f : CmdFields) : Bool :=
  f.op < 16 && f.rd < 16 && f.rs1 < 16 && f.rs2 < 16 && f.imm16 < 65536

/-- The fields that the format does not use are zero (R82, R87). -/
def CmdFields.unusedZero (f : CmdFields) : Format → Bool
  | .F3 => f.imm16 == 0
  | .F2 => f.rs2 == 0 && f.imm16 == 0
  | .FI => f.rs1 == 0 && f.rs2 == 0
  | .FD => f.rs1 == 0 && f.rs2 == 0 && f.imm16 == 0
  | .FS => f.rd == 0 && f.rs2 == 0 && f.imm16 == 0

/-- A command word's fields are those of a legal command: a legal opcode and zero in every unused
field (R87, R89). -/
def CmdFields.wellFormed (f : CmdFields) : Bool :=
  f.inRange &&
    match formatOfOpcode f.op with
    | some fmt => f.unusedZero fmt
    | none => false

/-- A command can be written as a command word: the one operand that may be out of range is the
immediate of SAMPLEB, 0 to 65535 (R84, R91). -/
def Instr.wellFormed : Instr → Bool
  | .sampleb _ imm => imm < 65536
  | .add _ _ _ | .sub _ _ _ | .mul _ _ _ | .sampleu _ | .compress _ _ | .chash _ | .encode _
  | .decode _ => true

end Sys2Proof
end

