-- ==== Sys2Proof/Decode.lean ====
section
/-! DEFINITION. The decoder of R88, total on 32-bit words, and the encoder of R81. -/

namespace Sys2Proof

/-- `bits[hi:lo]`: the unsigned number formed by bits hi down to lo of a word (R15). -/
def bits (w : Word) (hi lo : Nat) : Nat := w.toNat / 2 ^ lo % 2 ^ (hi + 1 - lo)

/-- The fields of a command word (R81). -/
def splitWord (w : Word) : CmdFields :=
  { op := bits w 3 0, rd := bits w 7 4, rs1 := bits w 11 8, rs2 := bits w 15 12,
    imm16 := bits w 31 16 }

/-- The register a 4-bit index names (R83). -/
def regOf (k : Nat) : RegId := Fin.ofNat 16 k

/-- The command that a word's fields are, none when they are illegal: R88, case by case. -/
def decodeFields (f : CmdFields) : Option Instr :=
  match f.op with
  | 0x1 => if f.imm16 = 0 then some (.add (regOf f.rd) (regOf f.rs1) (regOf f.rs2)) else none
  | 0x2 => if f.imm16 = 0 then some (.sub (regOf f.rd) (regOf f.rs1) (regOf f.rs2)) else none
  | 0x3 => if f.imm16 = 0 then some (.mul (regOf f.rd) (regOf f.rs1) (regOf f.rs2)) else none
  | 0x4 => if f.rs1 = 0 ∧ f.rs2 = 0 then some (.sampleb (regOf f.rd) f.imm16) else none
  | 0x5 => if f.rs1 = 0 ∧ f.rs2 = 0 ∧ f.imm16 = 0 then some (.sampleu (regOf f.rd)) else none
  | 0x6 => if f.rs2 = 0 ∧ f.imm16 = 0 then some (.compress (regOf f.rd) (regOf f.rs1)) else none
  | 0x7 => if f.rs1 = 0 ∧ f.rs2 = 0 ∧ f.imm16 = 0 then some (.chash (regOf f.rd)) else none
  | 0x8 => if f.rs1 = 0 ∧ f.rs2 = 0 ∧ f.imm16 = 0 then some (.encode (regOf f.rd)) else none
  | 0x9 => if f.rd = 0 ∧ f.rs2 = 0 ∧ f.imm16 = 0 then some (.decode (regOf f.rs1)) else none
  | _ => none

/-- The decoder: `none` is the spec's `Illegal`, which raises ILLEGAL_CMD when it is executed
(R88, R181). -/
def decode (w : Word) : Option Instr := decodeFields (splitWord w)

/-- The word of five fields: `imm16 * 2^16 + rs2 * 2^12 + rs1 * 2^8 + rd * 2^4 + op` (R81). -/
def joinFields (f : CmdFields) : Word :=
  BitVec.ofNat 32 (f.imm16 * 2 ^ 16 + f.rs2 * 2 ^ 12 + f.rs1 * 2 ^ 8 + f.rd * 2 ^ 4 + f.op)

/-- The fields of a command, with zero in every field its format does not use (R82, R85). -/
def Instr.fields : Instr → CmdFields
  | .add rd rs1 rs2 => { op := 0x1, rd := rd, rs1 := rs1, rs2 := rs2, imm16 := 0 }
  | .sub rd rs1 rs2 => { op := 0x2, rd := rd, rs1 := rs1, rs2 := rs2, imm16 := 0 }
  | .mul rd rs1 rs2 => { op := 0x3, rd := rd, rs1 := rs1, rs2 := rs2, imm16 := 0 }
  | .sampleb rd imm => { op := 0x4, rd := rd, rs1 := 0, rs2 := 0, imm16 := imm }
  | .sampleu rd => { op := 0x5, rd := rd, rs1 := 0, rs2 := 0, imm16 := 0 }
  | .compress rd rs1 => { op := 0x6, rd := rd, rs1 := rs1, rs2 := 0, imm16 := 0 }
  | .chash rd => { op := 0x7, rd := rd, rs1 := 0, rs2 := 0, imm16 := 0 }
  | .encode rd => { op := 0x8, rd := rd, rs1 := 0, rs2 := 0, imm16 := 0 }
  | .decode rs1 => { op := 0x9, rd := 0, rs1 := rs1, rs2 := 0, imm16 := 0 }

/-- The encoder (R81, R88). -/
def encode (i : Instr) : Word := joinFields i.fields

/-- The mask of each command's row of the opcode table (R86). -/
def Instr.mask : Instr → Word
  | .add _ _ _ | .sub _ _ _ | .mul _ _ _ => 0xFFFF000F
  | .sampleb _ _ => 0x0000FF0F
  | .sampleu _ | .chash _ | .encode _ => 0xFFFFFF0F
  | .compress _ _ => 0xFFFFF00F
  | .decode _ => 0xFFFFF0FF

/-- The match value of each command's row of the opcode table (R86). -/
def Instr.matchWord : Instr → Word
  | .add _ _ _ => 0x00000001
  | .sub _ _ _ => 0x00000002
  | .mul _ _ _ => 0x00000003
  | .sampleb _ _ => 0x00000004
  | .sampleu _ => 0x00000005
  | .compress _ _ => 0x00000006
  | .chash _ => 0x00000007
  | .encode _ => 0x00000008
  | .decode _ => 0x00000009

/-- The instruction the decoder reads from a word numbered as the opcode table numbers it: the lowest
nbits bits of w, every higher bit zero. A command is one 32-bit word delivered as a number, so there
is no byte order to apply (R59, R80). -/
def decodeTableWord (nbits w : Nat) : Option Instr := decode (BitVec.ofNat 32 (w % 2 ^ nbits))

end Sys2Proof
end

