-- ==== Sys2Proof/Config.lean ====
section
/-! DEFINITION. The parameters of the scheme (R6, R7, R9), the two configurations of the spec, the
constants of the ID register (R29), and the free values the entropy oracle supplies (R16). -/

namespace Sys2Proof

/-- The scalar parameters every rule of the family files is written over (R6, R9). -/
structure Params where
  /-- number of coefficients of a ring element, the degree of x^n + 1 -/
  n : Nat
  /-- coefficient modulus -/
  q : Nat
  /-- weight of the sparse challenge -/
  omega : Nat
  /-- rounding bits of COMPRESS -/
  d : Nat
  /-- sampling bound of the mask and of the blinding -/
  B : Nat
  /-- length of the symmetric key in bits -/
  klen : Nat
  deriving DecidableEq, Repr

/-- A well-formed configuration (R9). -/
abbrev Params.WellFormed (p : Params) : Prop :=
  1 ≤ p.n ∧ 3 ≤ p.q ∧ p.q < 2 ^ 32 ∧ 1 ≤ p.d ∧ p.omega ≤ p.n ∧ p.klen ≤ p.n ∧ p.B < 2 ^ 16

/-- `HALF` = floor((q-1)/2), the value that encodes a key bit 1 (R7, R141). -/
def Params.half (p : Params) : Nat := (p.q - 1) / 2

/-- `QUART` = ceil(q/4), the decode threshold (R7, R142). -/
def Params.quart (p : Params) : Nat := (p.q + 3) / 4

/-- `CMAX`, the largest value COMPRESS can produce (R7, R122). -/
def Params.cmax (p : Params) : Nat := (p.q - 1 + 2 ^ (p.d - 1) - 1) / 2 ^ p.d

/-- The configuration of the hardware, `P_SETLA` (R6). -/
@[reducible] def pSetla : Params :=
  { n := 1024, q := 33550337, omega := 16, d := 15, B := 32768, klen := 256 }

/-- The toy configuration `P_TOY8` of the spec's test vectors (R9). -/
@[reducible] def pToy8 : Params :=
  { n := 8, q := 257, omega := 2, d := 3, B := 8, klen := 4 }

/-- What the ID register reads: the bytes 'S', 'E', 'T' and the interface version 1 (R29). -/
def idWord : Word := 0x53455401

/-- FREE VALUE (DESIGN CHOICE, log entry 2): what lies behind the k-th answer of the entropy oracle.
It has no body, so nothing can be proved of its values; the answer made of it is constrained to the
interval of the request and to nothing else (R16, R110, U1). -/
opaque Config.entropy : Nat → Nat

end Sys2Proof
end

