-- ==== Sys2Proof/Machine/State.lean ====
section
/-! DEFINITION. The state of SETLA-RU as plain data (`10_state.md`), its faults (R180), what the
host's side of the port looks like (R50 to R55), and the state after reset (R40, R211). -/

namespace Sys2Proof.Machine

/-- The three faults of R180. Raising one is a NEXT state with STATUS.ERR and STATUS.ERRCODE set
(R183), so these name the cause that the shared operation `State.raiseFault` records; no step of the
model ends a run with `Host.Outcome.fault` (log entry 6). Safe: the machine goes on, as the spec's
does. -/
inductive Fault where
  /-- Code 1. Raised by the Execute step when the word in CMD does not decode (R181). Latched, safe. -/
  | illegalCmd
  /-- Code 2. Raised by the Execute step of CHASH when the digits of DIGEST run out before the weight
  is reached (R133, R184). Latched, safe. -/
  | chashExhausted
  /-- Code 3. Raised by an accepted host write of v >= q to the ring window (R58, R182). Latched,
  safe. -/
  | coeffRange
  deriving DecidableEq, Repr

/-- Why a step has no meaning. -/
inductive Refusal where
  /-- An instruction without a meaning in this model; no instruction is one, and no step answers it.
  Safe. -/
  | notModelled (mnemonic : String)
  deriving DecidableEq, Repr

/-- A port transaction of the host: a byte address, a size in bytes, and for a write a 32-bit value
(R50 (a), R53, R54). Every address and size can be presented (R226); log entry 8. -/
inductive PortReq where
  | read (addr size : Nat)
  | write (addr size : Nat) (v : Word)
  deriving DecidableEq, Repr

/-- The response of a port transaction (R53 to R55). -/
inductive Response where
  /-- a write that completed, also one that raised COEFF_RANGE (R58) -/
  | ok
  /-- a read that completed, with its data -/
  | data (v : Word)
  /-- a refusal: nothing read, nothing written, nothing latched (R55) -/
  | buserr
  deriving DecidableEq, Repr

/-- One turn of an interleaving of the agents' steps (R50; log entry 1). -/
inductive Turn where
  /-- the host performs a port transaction -/
  | port (t : PortReq)
  /-- the platform asserts the hard reset (R210) -/
  | hardReset
  /-- the unit takes its Execute step if it is busy -/
  | unit
  /-- from now on the entropy oracle answers, or does not (R114; log entry 4) -/
  | entropy (answers : Bool)
  deriving DecidableEq, Repr

/-- The surroundings of the block: the MODEL's own fields, not registers of the spec. A reset of the
block does not touch them (R213). -/
structure Env where
  /-- the turns to come; when there is none, the unit executes if it is busy (log entry 1) -/
  turns : List Turn
  /-- the responses the host has got back, newest first (R226; log entry 5) -/
  responses : List Response
  /-- whether the entropy oracle answers now (R114, U5; log entry 4) -/
  entropyReady : Bool
  /-- how many oracle answers have been used: the index of the next free value (log entry 2) -/
  draws : Nat
  deriving DecidableEq, Repr

/-- The state of the machine: every piece of state of `10_state.md`, and the model's own `env`. -/
structure State where
  /-- the ring registers `R[k][i]` (R20, R21) -/
  ring : Vector (Vector Slot 1024) 16
  /-- `KEY` (R26) -/
  key : BitVec 256
  /-- `DIGEST` (R27) -/
  digest : BitVec 512
  /-- `CMD`, the last issued word; the pending command while `busy` (R28, R41) -/
  cmd : Word
  /-- `STATUS.BUSY` (R31) -/
  busy : Bool
  /-- `STATUS.DONE` (R32) -/
  done : Bool
  /-- `STATUS.ERR` (R33) -/
  err : Bool
  /-- `STATUS.ERRCODE` (R33, R180) -/
  errcode : BitVec 4
  /-- `CTRL.IE_DONE` (R34) -/
  ieDone : Bool
  /-- `CTRL.IE_ERR` (R34) -/
  ieErr : Bool
  /-- the surroundings of the block, the model's own -/
  env : Env
  deriving DecidableEq, Repr

/-- The machine right after reset: the values of R40 and R211. The fields of `env` are the model's
own, and their values are DESIGN CHOICES (log entries 1, 2, 4, 5). -/
def State.reset : State :=
  { ring := Vector.replicate 16 (Vector.replicate 1024 0)
    key := 0
    digest := 0
    cmd := 0x00000000
    busy := false
    done := false
    err := false
    errcode := 0
    ieDone := false
    ieErr := false
    env := { turns := [], responses := [], entropyReady := true, draws := 0 } }

/-- What a meaning or a step answers. -/
abbrev Result := Host.Outcome State Fault Refusal

end Sys2Proof.Machine
end

