-- ==== Sys2Proof/Machine/Flags.lean ====
section
/-! DEFINITION. The status and control bits as words (R30, R34), the interrupt output (R37, R190), and
the three states of the unit (R56, R225). There are no arithmetic flags (R39). -/

namespace Sys2Proof.Machine

/-- What STATUS reads: BUSY in bit 0, DONE in bit 1, ERR in bit 2, ERRCODE in bits 11:8, zero in the
reserved bits (R30, R38). -/
def State.statusWord (s : State) : Word :=
  (BitVec.ofBool s.busy).setWidth 32
    ||| ((BitVec.ofBool s.done).setWidth 32 <<< 1)
    ||| ((BitVec.ofBool s.err).setWidth 32 <<< 2)
    ||| (s.errcode.setWidth 32 <<< 8)

/-- What CTRL reads: IE_DONE in bit 0, IE_ERR in bit 1, zero in the reserved bits and in SRST (R34,
R35, R38). -/
def State.ctrlWord (s : State) : Word :=
  (BitVec.ofBool s.ieDone).setWidth 32 ||| ((BitVec.ofBool s.ieErr).setWidth 32 <<< 1)

/-- The interrupt output, a level computed from state at every instant (R37, R190). -/
def State.irq (s : State) : Bool := (s.done && s.ieDone) || (s.err && s.ieErr)

/-- The states of the unit (R56, R225). -/
inductive UnitState where
  | idle
  | busy
  | error
  deriving DecidableEq, Repr

/-- Which state the unit is in (R225). -/
def State.unitState (s : State) : UnitState :=
  if s.busy then .busy else if s.err then .error else .idle

end Sys2Proof.Machine
end

