-- ==== Sys2Proof/Machine/Operands.lean ====
section
/-! DEFINITION. Ring elements as the rules write them (R13, R15), balanced representatives (R11), and
the operands of commands: whole ring registers (R22, R83), the words of KEY and DIGEST (R26, R27,
R60), the sampling bound (R84), and the answers of the entropy oracle (R16). -/

namespace Sys2Proof.Machine

/-- A ring element: exactly n integer coefficients (R13). -/
abbrev RingElem (p : Params) := Vector Nat p.n

/-- Coefficient i of a ring element; index 0 is the constant term (R13, R15). -/
def lane {n : Nat} (a : Vector Nat n) (i : Nat) : Nat := a.toList.getD i 0

/-- The vector whose entry i is `f i`. -/
def vtab {α : Type} (n : Nat) (f : Nat → α) : Vector α n := ⟨⟨(List.range n).map f⟩, by simp⟩

/-- Lane-wise image of one vector. -/
def vmap {α β : Type} {n : Nat} (f : α → β) (a : Vector α n) : Vector β n :=
  ⟨⟨a.toList.map f⟩, by simp⟩

/-- Lane-wise image of two vectors. -/
def vzip {α β γ : Type} {n : Nat} (f : α → β → γ) (a : Vector α n) (b : Vector β n) : Vector γ n :=
  ⟨⟨List.zipWith f a.toList b.toList⟩, by simp⟩

/-- `v mod q` of an integer, the canonical residue, in [0, q): the floored remainder (R10). -/
def residue (p : Params) (v : Int) : Nat := (v % (p.q : Int)).toNat

/-- `bal(v)`, the balanced representative of a canonical residue (R11). -/
def bal (p : Params) (v : Nat) : Int := if v ≤ p.q / 2 then (v : Int) else (v : Int) - p.q

/-- `R[k]`: the whole of ring register k as a ring element (R15, R22 (a)). -/
def State.readRing (s : State) (k : RegId) : RingElem pSetla := vmap BitVec.toNat s.ring[k]

/-- `R[k][i]`: one slot as a number (R15, R20). -/
def State.slot (s : State) (k : RegId) (i : Nat) : Nat := lane (s.readRing k) i

/-- Word j of a wide register, least significant word first (R26, R27, R60). -/
def getWord {n : Nat} (x : BitVec n) (j : Nat) : Word := (x >>> (32 * j)).setWidth 32

/-- The wide register with word j replaced (R26, R27, R60). -/
def putWord {n : Nat} (x : BitVec n) (j : Nat) (v : Word) : BitVec n :=
  (x &&& ~~~((0xFFFFFFFF#32).setWidth n <<< (32 * j))) ||| (v.setWidth n <<< (32 * j))

/-- An answer of the oracle in the interval [lo, hi] made of a free value; every number of the
interval is one of them (R16, R110; log entry 2). -/
def answerIn (free : Nat) (lo hi : Int) : Int := lo + (free : Int) % (hi - lo + 1)

/-- The answer to the k-th `Draw(lo, hi)` request (R15, R16). -/
def drawAt (k : Nat) (lo hi : Int) : Int := answerIn (Config.entropy k) lo hi

/-- `Draw(lo, hi)` for lane i of a command that finds the oracle in this state: one draw per lane, in
lane order (R110). -/
def State.laneDraw (s : State) (lo hi : Int) (i : Nat) : Int := drawAt (s.env.draws + i) lo hi

end Sys2Proof.Machine
end

