-- ==== Sys2Proof/Machine/Ops.lean ====
section
/-! DEFINITION. The named operations over the registers: writing a destination (R22, R100), completing
a command (R100 (c)), raising a fault, the one way an exception is taken here (R183), and the reset,
the one way back from it (R189, R210). -/

namespace Sys2Proof.Machine

/-- `R[k] <- v`: all slots of ring register k at once (R15, R22 (a)). -/
def State.setRing (s : State) (k : RegId) (v : RingElem pSetla) : State :=
  { s with ring := s.ring.set k (vmap (BitVec.ofNat 25) v) }

/-- `R[k][i] <- v`: one slot, the host's write (R22 (b), R58). -/
def State.setSlot (s : State) (k : RegId) (i : Fin 1024) (v : Slot) : State :=
  { s with ring := s.ring.set k (s.ring[k].set i v) }

/-- `KEY <- v`, all KLEN bits at once (R26, R140). -/
def State.setKey (s : State) (v : Nat) : State := { s with key := BitVec.ofNat 256 v }

/-- Host write of word j of KEY (R26). -/
def State.setKeyWord (s : State) (j : Fin 8) (v : Word) : State := { s with key := putWord s.key j v }

/-- Host write of word j of DIGEST (R27). -/
def State.setDigestWord (s : State) (j : Fin 16) (v : Word) : State :=
  { s with digest := putWord s.digest j v }

/-- Issuing a command: CMD takes the word, DONE is cleared, BUSY is set (R28). -/
def State.issue (s : State) (w : Word) : State := { s with cmd := w, done := false, busy := true }

/-- Completion of a command, in the step of its destination write (R31, R32, R67, R100 (c)). -/
def State.complete (s : State) : State := { s with busy := false, done := true }

/-- Clearing DONE by a STATUS write with bit 1 set (R30, R32). -/
def State.clearDone (s : State) : State := { s with done := false }

/-- A CTRL write with bit 31 clear: the enables are bits 0 and 1 of the word (R34). -/
def State.setCtrl (s : State) (v : Word) : State :=
  { s with ieDone := v.getLsbD 0, ieErr := v.getLsbD 1 }

/-- The code STATUS.ERRCODE records for each fault (R180). -/
def Fault.code : Fault → BitVec 4
  | .illegalCmd => 1
  | .chashExhausted => 2
  | .coeffRange => 3

/-- Fault entry: ERR is set, ERRCODE takes the code, BUSY is cleared, DONE is unchanged, and nothing
else changes (R183). -/
def State.raiseFault (s : State) (f : Fault) : State :=
  { s with err := true, errcode := f.code, busy := false }

/-- The reset of the block, hard or by CTRL bit 31: every piece of the block's state takes its reset
value, a pending command is discarded, an error state ends; the surroundings are not the block's
(R35, R210, R213). It is the only way out of the error state (R189). -/
def State.resetBlock (s : State) : State := { State.reset with env := s.env }

/-- k oracle answers have been used (R110; log entry 2). -/
def State.useDraws (s : State) (k : Nat) : State :=
  { s with env := { s.env with draws := s.env.draws + k } }

/-- The turns that are left (log entry 1). -/
def State.setTurns (s : State) (ts : List Turn) : State := { s with env := { s.env with turns := ts } }

/-- The oracle begins or ceases to answer (R114; log entry 4). -/
def State.setEntropyReady (s : State) (b : Bool) : State :=
  { s with env := { s.env with entropyReady := b } }

/-- The host gets a response back (R55, R226). -/
def State.respond (s : State) (r : Response) : State :=
  { s with env := { s.env with responses := r :: s.env.responses } }

/-- The end of a command that writes a ring register: the destination and the completion in one step
(R67, R100 (b), (c)). -/
def State.finishRing (s : State) (rd : RegId) (v : RingElem pSetla) : Result :=
  .next (s.setRing rd v).complete

/-- The end of a sampling command (R110, R114). While the oracle is silent the command stays pending:
no state changes. Otherwise the destination holds what the n draws made, and they are used up. -/
def State.finishSample (s : State) (rd : RegId) (v : RingElem pSetla) : Result :=
  if s.env.entropyReady then .next ((s.setRing rd v).complete.useDraws pSetla.n) else .next s

end Sys2Proof.Machine
end

