-- ==== Sys2Proof/Machine/Challenge.lean ====
section
/-! DEFINITION. CHASH (`43_challenge_hash.md`). -/

namespace Sys2Proof.Machine

/-- What a ternary digit adds to the weight: `|t - 1|` (R131). -/
def digitWeight (t : Nat) : Nat := ((t : Int) - 1).natAbs

/-- The coefficient of a ternary digit: `(t - 1) mod q` (R131). -/
def digitCoeff (p : Params) (t : Nat) : Nat := residue p ((t : Int) - 1)

/-- The loop of R131 from a point where `room` positions are left, the working integer is v and the
weight so far is w: the coefficients it appends, or none when it is exhausted (R133), which is v = 0
or no position left before the weight is reached. -/
def expandDigits (p : Params) (room v w : Nat) : Option (List Nat) :=
  if p.omega ≤ w then some []
  else if v = 0 then none
  else
    match room with
    | 0 => none
    | room + 1 =>
      (expandDigits p room (v / 3) (w + digitWeight (v % 3))).map (digitCoeff p (v % 3) :: ·)
  termination_by structural room

/-- The sparse challenge of a digest: the expansion, and zero in the unfilled positions (R131). -/
def ringChallenge (p : Params) (digest : Nat) : Option (RingElem p) :=
  (expandDigits p p.n digest 0).map (fun c => vtab p.n (fun i => c.getD i 0))

/-- `CHASH Rd` (R131); exhaustion raises CHASH_EXHAUSTED and writes no data state (R133, R184). -/
def execChash (rd : RegId) (s : State) : Result :=
  match ringChallenge pSetla s.digest.toNat with
  | some c => s.finishRing rd c
  | none => .next (s.raiseFault .chashExhausted)

end Sys2Proof.Machine
end

