-- ==== Sys2Proof/Machine/Compress.lean ====
section
/-! DEFINITION. COMPRESS (`42_compress.md`). -/

namespace Sys2Proof.Machine

/-- The low d bits of x mapped to the balanced range (-2^(d-1), 2^(d-1)] (R121). -/
def lowBits (p : Params) (x : Nat) : Int :=
  let t0 := x % 2 ^ p.d
  if t0 ≤ 2 ^ (p.d - 1) then (t0 : Int) else (t0 : Int) - 2 ^ p.d

/-- COMPRESS of one coefficient: `(x - t) div 2^d` (R121; C1: no wrap of the result). -/
def compressLane (p : Params) (x : Nat) : Nat := (((x : Int) - lowBits p x) / 2 ^ p.d).toNat

/-- COMPRESS of a ring element (R121). -/
def ringCompress (p : Params) (a : RingElem p) : RingElem p := vmap (compressLane p) a

/-- `COMPRESS Rd, Rs1` (R121). -/
def execCompress (rd rs1 : RegId) (s : State) : Result :=
  s.finishRing rd (ringCompress pSetla (s.readRing rs1))

end Sys2Proof.Machine
end

