-- ==== Sys2Proof/Machine/KeyCodec.lean ====
section
/-! DEFINITION. ENCODE and DECODE (`44_key_codec.md`). -/

namespace Sys2Proof.Machine

/-- The ring element that carries a key: `KEY.bit(i) * HALF` in lanes below KLEN, zero above
(R141). -/
def ringEncode (p : Params) (key : Nat) : RingElem p :=
  vtab p.n (fun i => if i < p.klen then (key.testBit i).toNat * p.half else 0)

/-- The key bit a coefficient decodes to: 1 strictly between `QUART - 1` and `q - QUART`, on the
canonical residue (R142, R143; C2). -/
def decodeBit (p : Params) (v : Nat) : Bool := p.quart - 1 < v && v < p.q - p.quart

/-- The number whose bit i is what entry i decodes to (R142). -/
def keyOfLanes (p : Params) : List Nat → Nat
  | [] => 0
  | v :: vs => (decodeBit p v).toNat + 2 * keyOfLanes p vs

/-- The key recovered from lanes 0 to KLEN - 1 of a ring element (R142). -/
def ringDecode (p : Params) (a : RingElem p) : Nat := keyOfLanes p (a.toList.take p.klen)

/-- `ENCODE Rd` (R141). -/
def execEncode (rd : RegId) (s : State) : Result :=
  s.finishRing rd (ringEncode pSetla s.key.toNat)

/-- `DECODE Rs1`: KEY takes the recovered key and no ring register is written (R142). -/
def execDecode (rs1 : RegId) (s : State) : Result :=
  .next (s.setKey (ringDecode pSetla (s.readRing rs1))).complete

end Sys2Proof.Machine
end

