-- ==== Sys2Proof/Machine/RingArith.lean ====
section
/-! DEFINITION. ADD, SUB and MUL (`40_ring_arith.md`). -/

namespace Sys2Proof.Machine

/-- Coefficientwise sum modulo q (R101). -/
def ringAdd (p : Params) (a b : RingElem p) : RingElem p := vzip (fun x y => (x + y) % p.q) a b

/-- Coefficientwise difference modulo q, first minus second (R102). -/
def ringSub (p : Params) (a b : RingElem p) : RingElem p :=
  vzip (fun (x y : Nat) => residue p ((x : Int) - (y : Int))) a b

/-- What the coefficients `a[0], a[1], ...` of the first factor are multiplied by in lane k of the
product: `b[k], ..., b[0]`, then, wrapped past x^(n-1) and so with a minus sign, `-b[n-1], ...,
-b[k+1]` (R103). -/
def negacyclicRow (b : List Nat) (k : Nat) : List Int :=
  (b.take (k + 1)).reverse.map (fun (x : Nat) => (x : Int)) ++
    (b.drop (k + 1)).reverse.map (fun (x : Nat) => -(x : Int))

/-- The sum of the products, an unbounded integer (R12, R103). -/
def signedDot (a : List Nat) (row : List Int) : Int :=
  (List.zipWith (fun (x : Nat) (y : Int) => (x : Int) * y) a row).foldl (fun acc t => acc + t) 0

/-- Lane k of the product in Z_q[x]/(x^n+1) (R103). -/
def mulLane (p : Params) (a b : List Nat) (k : Nat) : Nat :=
  residue p (signedDot a (negacyclicRow b k))

/-- The negacyclic product modulo q (R103; R105 leaves the algorithm free). -/
def ringMul (p : Params) (a b : RingElem p) : RingElem p :=
  vtab p.n (fun k => mulLane p a.toList b.toList k)

/-- `ADD Rd, Rs1, Rs2` (R101). -/
def execAdd (rd rs1 rs2 : RegId) (s : State) : Result :=
  s.finishRing rd (ringAdd pSetla (s.readRing rs1) (s.readRing rs2))

/-- `SUB Rd, Rs1, Rs2` (R102). -/
def execSub (rd rs1 rs2 : RegId) (s : State) : Result :=
  s.finishRing rd (ringSub pSetla (s.readRing rs1) (s.readRing rs2))

/-- `MUL Rd, Rs1, Rs2` (R103). -/
def execMul (rd rs1 rs2 : RegId) (s : State) : Result :=
  s.finishRing rd (ringMul pSetla (s.readRing rs1) (s.readRing rs2))

end Sys2Proof.Machine
end

