-- ==== Sys2Proof/Machine/Sampler.lean ====
section
/-! DEFINITION. SAMPLEB and SAMPLEU (`41_sampler.md`). -/

namespace Sys2Proof.Machine

/-- The ring element of n integer draws, each stored as its canonical residue (R111). -/
def ringOfDraws (p : Params) (r : Nat → Int) : RingElem p := vtab p.n (fun i => residue p (r i))

/-- `SAMPLEB Rd, imm`: one draw from [-imm, imm] per lane (R111). -/
def execSampleb (rd : RegId) (imm : Nat) (s : State) : Result :=
  s.finishSample rd (ringOfDraws pSetla (s.laneDraw (-(imm : Int)) (imm : Int)))

/-- `SAMPLEU Rd`: one draw from [0, q - 1] per lane (R112). -/
def execSampleu (rd : RegId) (s : State) : Result :=
  s.finishSample rd (ringOfDraws pSetla (s.laneDraw 0 ((pSetla.q : Int) - 1)))

end Sys2Proof.Machine
end

