-- ==== Sys2Proof/Machine/Dispatch.lean ====
section
/-! DEFINITION. The effect of the Execute step of each decoded command (R67, R85). -/

namespace Sys2Proof.Machine

def exec (i : Instr) (s : State) : Host.Outcome State Fault Refusal :=
  match i with
  | .add rd rs1 rs2 => Sys2Proof.Machine.execAdd rd rs1 rs2 s
  | .sub rd rs1 rs2 => Sys2Proof.Machine.execSub rd rs1 rs2 s
  | .mul rd rs1 rs2 => Sys2Proof.Machine.execMul rd rs1 rs2 s
  | .sampleb rd imm => Sys2Proof.Machine.execSampleb rd imm s
  | .sampleu rd => Sys2Proof.Machine.execSampleu rd s
  | .compress rd rs1 => Sys2Proof.Machine.execCompress rd rs1 s
  | .chash rd => Sys2Proof.Machine.execChash rd s
  | .encode rd => Sys2Proof.Machine.execEncode rd s
  | .decode rs1 => Sys2Proof.Machine.execDecode rs1 s

end Sys2Proof.Machine
end

