-- ==== Sys2Proof/Machine/Port.lean ====
section
/-! DEFINITION. The host port (`20_memory.md`): the address map, the checks of a transaction in the
spec's order, and the read and write of each register. -/

namespace Sys2Proof.Machine

/-- The parameter registers (R36). -/
inductive ParamReg where
  | n
  | q
  | omega
  | d
  | b
  | klen
  deriving DecidableEq, Repr

/-- A register of the port (R52). -/
inductive PortReg where
  | cmd
  | id
  | status
  | ctrl
  | param (r : ParamReg)
  | key (j : Fin 8)
  | digest (j : Fin 16)
  | slot (k : RegId) (i : Fin 1024)
  deriving DecidableEq, Repr

/-- The single registers of the control page (R52). -/
def controlReg (a : Nat) : Option PortReg :=
  match a with
  | 0x00000 => some .cmd
  | 0x00004 => some .id
  | 0x00008 => some .status
  | 0x0000C => some .ctrl
  | 0x00010 => some (.param .n)
  | 0x00014 => some (.param .q)
  | 0x00018 => some (.param .omega)
  | 0x0001C => some (.param .d)
  | 0x00020 => some (.param .b)
  | 0x00024 => some (.param .klen)
  | _ => none

/-- The address map: the register at a byte address, none where the address is unmapped or is no
multiple of 4 (R52, R57, R61). In the ring window k is address bits 15:12 and i is bits 11:2. -/
def portReg (a : Nat) : Option PortReg :=
  if a % 4 ≠ 0 then none
  else if 0x00040 ≤ a ∧ a < 0x00060 then some (.key (Fin.ofNat 8 ((a - 0x40) / 4)))
  else if 0x00080 ≤ a ∧ a < 0x000C0 then some (.digest (Fin.ofNat 16 ((a - 0x80) / 4)))
  else if 0x10000 ≤ a ∧ a ≤ 0x1FFFF then
    some (.slot (Fin.ofNat 16 (a / 2 ^ 12)) (Fin.ofNat 1024 (a / 4)))
  else controlReg a

/-- The byte address of a register (R52, R57). -/
def PortReg.addr : PortReg → Nat
  | .cmd => 0x00000
  | .id => 0x00004
  | .status => 0x00008
  | .ctrl => 0x0000C
  | .param .n => 0x00010
  | .param .q => 0x00014
  | .param .omega => 0x00018
  | .param .d => 0x0001C
  | .param .b => 0x00020
  | .param .klen => 0x00024
  | .key j => 0x00040 + 4 * j
  | .digest j => 0x00080 + 4 * j
  | .slot k i => 0x10000 + 0x1000 * k + 4 * i

/-- ID and PARAM_* are read-only (R29, R36). -/
def PortReg.readOnly : PortReg → Bool
  | .id | .param _ => true
  | .cmd | .status | .ctrl | .key _ | .digest _ | .slot _ _ => false

/-- Data state: KEY, DIGEST and the ring window (R56). -/
def PortReg.isData : PortReg → Bool
  | .key _ | .digest _ | .slot _ _ => true
  | .cmd | .id | .status | .ctrl | .param _ => false

/-- A register of the ring window (R57). -/
def PortReg.isSlot : PortReg → Bool
  | .slot _ _ => true
  | .cmd | .id | .status | .ctrl | .param _ | .key _ | .digest _ => false

def PortReq.addr : PortReq → Nat
  | .read a _ => a
  | .write a _ _ => a

def PortReq.size : PortReq → Nat
  | .read _ n => n
  | .write _ n _ => n

def PortReq.isWrite : PortReq → Bool
  | .read _ _ => false
  | .write _ _ _ => true

/-- The value a write presents is not a canonical residue: v >= q, unsigned (R58). -/
def PortReq.outOfRange : PortReq → Bool
  | .read _ _ => false
  | .write _ _ v => pSetla.q ≤ v.toNat

/-- What the port decides about a transaction (R73). -/
inductive Verdict where
  /-- steps 1 to 6: refused -/
  | buserr
  /-- step 7: COEFF_RANGE is raised, the slot is unchanged, the response is `ok` -/
  | coeffRange
  /-- step 8: the access is performed -/
  | perform (r : PortReg)
  deriving DecidableEq, Repr

/-- The checks of R73, steps 2 to 8, at an address that step 1 let pass. -/
def State.gate (s : State) (t : PortReq) (r : PortReg) : Verdict :=
  if t.isWrite ∧ r.readOnly then .buserr
  else if r = .cmd ∧ t.isWrite ∧ (s.busy ∨ s.err) then .buserr
  else if r.isData ∧ s.busy then .buserr
  else if r.isData ∧ t.isWrite ∧ s.err then .buserr
  else if r.isSlot ∧ t.isWrite ∧ t.outOfRange then .coeffRange
  else .perform r

/-- The checks on a port transaction, in the order of R73. -/
def State.judge (s : State) (t : PortReq) : Verdict :=
  if t.size ≠ 4 ∨ t.addr % 4 ≠ 0 ∨ 0x1FFFF < t.addr then .buserr
  else
    match portReg t.addr with
    | none => .buserr
    | some r => s.gate t r

/-- What a parameter register reads (R36). -/
def ParamReg.value : ParamReg → Word
  | .n => BitVec.ofNat 32 pSetla.n
  | .q => BitVec.ofNat 32 pSetla.q
  | .omega => BitVec.ofNat 32 pSetla.omega
  | .d => BitVec.ofNat 32 pSetla.d
  | .b => BitVec.ofNat 32 pSetla.B
  | .klen => BitVec.ofNat 32 pSetla.klen

/-- The 32-bit value a register reads (R53); a slot is zero-extended (R21, R57). -/
def State.readReg (s : State) : PortReg → Word
  | .cmd => s.cmd
  | .id => idWord
  | .status => s.statusWord
  | .ctrl => s.ctrlWord
  | .param r => r.value
  | .key j => getWord s.key j
  | .digest j => getWord s.digest j
  | .slot k i => (s.ring[k][i]).setWidth 32

/-- The effect of a write that the checks let pass (R54): CMD issues (R28), STATUS clears DONE when
bit 1 is set (R30), CTRL resets when bit 31 is set and otherwise sets the enables (R34, R35), data
state takes the value. A write of a read-only register never gets here (R73, step 3). -/
def State.writeReg (s : State) (r : PortReg) (v : Word) : State :=
  match r with
  | .cmd => s.issue v
  | .status => if v.getLsbD 1 then s.clearDone else s
  | .ctrl => if v.getLsbD 31 then s.resetBlock else s.setCtrl v
  | .key j => s.setKeyWord j v
  | .digest j => s.setDigestWord j v
  | .slot k i => s.setSlot k i (v.setWidth 25)
  | .id | .param _ => s

/-- One port transaction: the state after it and the response (R53, R54, R55, R58). -/
def State.access (s : State) (t : PortReq) : State × Response :=
  match s.judge t with
  | .buserr => (s, .buserr)
  | .coeffRange => (s.raiseFault .coeffRange, .ok)
  | .perform r =>
    match t with
    | .read _ _ => (s, .data (s.readReg r))
    | .write _ _ v => (s.writeReg r v, .ok)

/-- A transaction as a step of the host: its effect, and the response with the host (R50 (a),
R55). -/
def State.portStep (s : State) (t : PortReq) : State := (s.access t).1.respond (s.access t).2

end Sys2Proof.Machine
end

