-- ==== Sys2Proof/Machine/Execute.lean ====
section
/-! DEFINITION. The Execute step of the unit (R67), and the turns of the agents (R50). -/

namespace Sys2Proof.Machine

/-- The Execute step: decode CMD, raise ILLEGAL_CMD if it is not a legal command, otherwise do what
the command does, all in one transition (R67, R181). -/
def State.execute (s : State) : Result :=
  match decode s.cmd with
  | none => .next (s.raiseFault .illegalCmd)
  | some i => exec i s

/-- The unit's turn: Execute is enabled exactly when BUSY = 1 (R50 (b), R67); an idle unit does
nothing (R212). -/
def State.unitTurn (s : State) : Result := if s.busy then s.execute else .next s

/-- The state in which the agents' next turn finds the machine. -/
def State.afterTurn (s : State) : State := s.setTurns s.env.turns.tail

/-- The next turn of the interleaving (R50). When the list of turns is empty the host has performed
its last transaction, and a busy unit executes (R67, R225; log entry 1). -/
def State.takeTurn (s : State) : Result :=
  match s.env.turns with
  | [] => s.unitTurn
  | .unit :: _ => s.afterTurn.unitTurn
  | .port t :: _ => .next (s.afterTurn.portStep t)
  | .hardReset :: _ => .next s.afterTurn.resetBlock
  | .entropy b :: _ => .next (s.afterTurn.setEntropyReady b)

end Sys2Proof.Machine
end

