-- ==== Sys2Proof/Machine/Step.lean ====
section
/-! DEFINITION. One step of the machine, and where its next instruction comes from. -/

namespace Sys2Proof.Machine

/-- One step: the next turn of the agents (R50). -/
def step (s : State) : Host.Outcome State Fault Refusal := s.takeTurn

/-- s with a command word pending, as an accepted write of the word to CMD leaves it (R28, R41), and
the unit's turn next, so that the very next step executes it; with no turn ahead that is so already.
The block has no program counter and fetches nothing (R25); log entry 7. -/
def State.withFetchWord (s : State) (nbits w : Nat) : State :=
  let issued := s.issue (BitVec.ofNat 32 (w % 2 ^ nbits))
  match s.env.turns with
  | [] => issued
  | t :: ts => issued.setTurns (.unit :: t :: ts)

end Sys2Proof.Machine
end

