-- ==== Sys2Proof/Machine/HostProtocol.lean ====
section
/-! DEFINITION. The surrounding software, transcribed from `49_host_protocol.md`: KeyGen, Signcrypt and
Unsigncrypt over the ring functions of the block, with the host's open functions as arguments (R150).
Nothing of the machine's step depends on this file: these rules bind the host, not the block (R4). The
same protocol as port transactions is in `HostProgram.lean`. -/

namespace Sys2Proof.Machine

abbrev Bytes := List (BitVec 8)

/-! ### Ring elements as the host holds them -/

/-- The document's RingElement: n coefficients, each its own canonical residue (for q > 0, each below
q), so that nothing tests membership later (R13, R171). -/
structure RingValue (p : Params) where
  coeffs : RingElem p
  canonical : ∀ v ∈ coeffs.toList, v % p.q = v
  deriving DecidableEq, Repr

/-- The constructor: coefficients are canonicalized at construction (R171). -/
def RingValue.canon {p : Params} (v : RingElem p) : RingValue p :=
  ⟨vmap (· % p.q) v, by simp [vmap]⟩

/-- a + b, as ADD computes it (R101). -/
def RingValue.add {p : Params} (a b : RingValue p) : RingValue p := .canon (ringAdd p a.coeffs b.coeffs)

/-- a - b, as SUB computes it (R102). -/
def RingValue.sub {p : Params} (a b : RingValue p) : RingValue p := .canon (ringSub p a.coeffs b.coeffs)

/-- a · b, as MUL computes it (R103). -/
def RingValue.mul {p : Params} (a b : RingValue p) : RingValue p := .canon (ringMul p a.coeffs b.coeffs)

/-- Compress(a, d), as COMPRESS computes it (R121). -/
def RingValue.compress {p : Params} (a : RingValue p) : RingValue p := .canon (ringCompress p a.coeffs)

/-- Encode(K), as ENCODE computes it (R141). -/
def RingValue.encode {p : Params} (key : BitVec p.klen) : RingValue p := .canon (ringEncode p key.toNat)

/-- Decode(a), as DECODE computes it (R142). -/
def RingValue.decode {p : Params} (a : RingValue p) : BitVec p.klen :=
  BitVec.ofNat p.klen (ringDecode p a.coeffs)

/-- Answers of the oracle to `Draw(-bound, bound)`, one for each lane (R110, R111). -/
structure Draws (bound : Nat) where
  answer : Nat → Int
  inRange : ∀ i, -(bound : Int) ≤ answer i ∧ answer i ≤ bound

/-- `sampleBounded(bound)`, given the oracle's answers, as SAMPLEB computes it (R111). -/
def sampleBounded {p : Params} {bound : Nat} (r : Draws bound) : RingValue p :=
  .canon (ringOfDraws p r.answer)

/-- A ring element as it arrives from outside: words of any value, any number of them (R168). -/
abbrev RawRing := List Word

/-- Not malformed: the right length, every coefficient in range (R58, R168). -/
def RawRing.wellFormed (p : Params) (r : RawRing) : Bool :=
  r.length == p.n && r.all (fun v => v.toNat < p.q)

/-- The ring element of n words, lane 0 first. -/
def RingValue.ofWords {p : Params} (r : List Word) : RingValue p :=
  .canon (vtab p.n fun i => (r.getD i 0).toNat)

/-- Malformed input is rejected, not reduced (R168; C3). -/
def RingValue.ofRaw {p : Params} (r : RawRing) : Option (RingValue p) :=
  if RawRing.wellFormed p r then some (.ofWords r) else none

/-! ### Keys, bundles, and the host's open functions -/

/-- pk = (t1, t2) (R155). -/
structure PubKey (α : Type) where
  t1 : α
  t2 : α
  deriving DecidableEq, Repr

/-- sk = {s, e1, e2} (R155). -/
structure SecKey (α : Type) where
  s : α
  e1 : α
  e2 : α
  deriving DecidableEq, Repr

/-- The bundle {z, c, x, eps} (R162). -/
structure Bundle (α : Type) where
  z : α
  c : α
  x : α
  eps : Bytes
  deriving DecidableEq, Repr

/-- The public parameters a1 and a2 (R171, R215). -/
structure PublicElems (α : Type) where
  a1 : α
  a2 : α
  deriving DecidableEq, Repr

/-- A received public key, none when it is malformed (R168). -/
def PubKey.ofRaw {p : Params} (k : PubKey RawRing) : Option (PubKey (RingValue p)) :=
  match RingValue.ofRaw k.t1, RingValue.ofRaw k.t2 with
  | some t1, some t2 => some { t1 := t1, t2 := t2 }
  | _, _ => none

/-- A received bundle, none when it is malformed (R168). -/
def Bundle.ofRaw {p : Params} (b : Bundle RawRing) : Option (Bundle (RingValue p)) :=
  match RingValue.ofRaw b.z, RingValue.ofRaw b.c, RingValue.ofRaw b.x with
  | some z, some c, some x => some { z := z, c := c, x := x, eps := b.eps }
  | _, _, _ => none

/-- A key as the cipher uses it: a bit string of KLEN bits (R150). -/
abbrev CipherKey (p : Params) := Vector Bool p.klen

/-- The functions neither the block nor the document defines (R150; log entry 9). The sentinel `FAIL`
is a constructor of the result type, so it is distinct from every message (R167, U11). -/
structure HostFns (p : Params) where
  /-- `HASH512` (R151) -/
  hash512 : Bytes → Vector (BitVec 8) 64
  /-- `SERIALIZE` of the ordered tuple (R152) -/
  serialize : RingValue p → RingValue p → Bytes → CipherKey p → PubKey (RingValue p) →
    PubKey (RingValue p) → Bytes
  /-- `DIGEST_TO_INT` -/
  digestToInt : Vector (BitVec 8) 64 → BitVec 512
  /-- `KEY_BITS`, from the cipher's key to the integer of the KEY register -/
  keyOfCipher : CipherKey p → BitVec p.klen
  /-- `KEY_BITS`, from the integer of the KEY register to the cipher's key -/
  cipherOfKey : BitVec p.klen → CipherKey p
  /-- `CIPHER.encrypt` (plaintext, key) -/
  encrypt : Bytes → CipherKey p → Bytes
  /-- `CIPHER.decrypt` (ciphertext, key), none for failure -/
  decrypt : Bytes → CipherKey p → Option Bytes
  /-- the plaintext used after a decryption error: any byte string (R165, U10) -/
  plainAfterError : Bytes → CipherKey p → Bytes
  /-- `HOST_RNG`: the key of each attempt of a call (R156, R160) -/
  hostRng : Nat → CipherKey p
  /-- `MAX_ATTEMPTS` (R162) -/
  maxAttempts : Nat

/-- What may be assumed of the host's functions (R150): decryption inverts encryption, `KEY_BITS` is a
bijection, and the cap is positive. -/
structure HostFns.Lawful {p : Params} (h : HostFns p) : Prop where
  decrypt_encrypt : ∀ m k, h.decrypt (h.encrypt m k) k = some m
  cipherOfKey_keyOfCipher : ∀ k, h.cipherOfKey (h.keyOfCipher k) = k
  keyOfCipher_cipherOfKey : ∀ k, h.keyOfCipher (h.cipherOfKey k) = k
  attempts_pos : 1 ≤ h.maxAttempts

/-- `DIGEST_TO_INT(HASH512(SERIALIZE(...)))`: what the host writes to DIGEST (R154). -/
def HostFns.digest {p : Params} (h : HostFns p) (u1 u2 : RingValue p) (m : Bytes) (key : CipherKey p)
    (pkS pkR : PubKey (RingValue p)) : BitVec 512 :=
  h.digestToInt (h.hash512 (h.serialize u1 u2 m key pkS pkR))

/-- ChallengeHash as a composite; none is exhaustion (R154). -/
def challengeHash {p : Params} (h : HostFns p) (u1 u2 : RingValue p) (m : Bytes) (key : CipherKey p)
    (pkS pkR : PubKey (RingValue p)) : Option (RingValue p) :=
  (ringChallenge p (h.digest u1 u2 m key pkS pkR).toNat).map .canon

/-! ### KeyGen -/

/-- The public key of a secret key: t1 = a1·s + e1, t2 = a2·s + e2 (R155). -/
def pubOfSec {p : Params} (a : PublicElems (RingValue p)) (sk : SecKey (RingValue p)) :
    PubKey (RingValue p) :=
  { t1 := (a.a1.mul sk.s).add sk.e1, t2 := (a.a2.mul sk.s).add sk.e2 }

/-- KeyGen: s, e1 and e2 by `sampleBounded(1)` (R155). -/
def keyGen {p : Params} (a : PublicElems (RingValue p)) (rs re1 re2 : Draws 1) :
    SecKey (RingValue p) × PubKey (RingValue p) :=
  let sk : SecKey (RingValue p) :=
    { s := sampleBounded rs, e1 := sampleBounded re1, e2 := sampleBounded re2 }
  (sk, pubOfSec a sk)

/-! ### Signcrypt -/

/-- The rejection bound: every coefficient of z lies strictly within (-(B-omega), B-omega) (R158,
R166; C5). -/
def withinBound (p : Params) (z : RingValue p) : Bool :=
  z.coeffs.toList.all (fun v => decide ((bal p v).natAbs < p.B - p.omega))

/-- The values of one attempt of Signcrypt (R157). -/
structure Attempt (p : Params) where
  y : RingValue p
  u1 : RingValue p
  u2 : RingValue p
  c : RingValue p
  z : RingValue p
  w1 : RingValue p
  w2 : RingValue p
  deriving DecidableEq, Repr

/-- The loop body of Signcrypt, with y by `sampleBounded(B)`; none when the challenge is exhausted
(R157, R168). -/
def attempt {p : Params} (h : HostFns p) (a : PublicElems (RingValue p)) (sk : SecKey (RingValue p))
    (pkS pkR : PubKey (RingValue p)) (m : Bytes) (key : CipherKey p) (r : Draws p.B) :
    Option (Attempt p) :=
  let y : RingValue p := sampleBounded r
  let v1 := a.a1.mul y
  let v2 := a.a2.mul y
  (challengeHash h v1.compress v2.compress m key pkS pkR).map fun c =>
    { y := y, u1 := v1.compress, u2 := v2.compress, c := c, z := (sk.s.mul c).add y,
      w1 := v1.sub (sk.e1.mul c), w2 := v2.sub (sk.e2.mul c) }

/-- An iteration is accepted iff z is within the bound and both compressed values agree (R158,
R159). -/
def Attempt.accepted {p : Params} (t : Attempt p) : Bool :=
  withinBound p t.z && (t.u1 == t.w1.compress) && (t.u2 == t.w2.compress)

/-- How Signcrypt ends (R162, R168). -/
inductive SigncryptResult (p : Params) where
  | bundle (b : Bundle (RingValue p))
  /-- the cap of attempts is exceeded: fatal configuration error (R162) -/
  | fatalConfiguration
  /-- CHASH_EXHAUSTED: fatal internal error (R168) -/
  | fatalInternal
  /-- malformed input: fatal precondition error, before any protocol logic (R168) -/
  | fatalPrecondition
  deriving DecidableEq, Repr

/-- x = t1_receiver·y + y0 + Encode(K) (R161). -/
def blinding {p : Params} (pkR : PubKey (RingValue p)) (y y0 : RingValue p) (key : BitVec p.klen) :
    RingValue p :=
  ((pkR.t1.mul y).add y0).add (.encode key)

/-- The bundle of an accepted attempt, with y0 by `sampleBounded(B)` (R161, R162). -/
def Attempt.toBundle {p : Params} (t : Attempt p) (h : HostFns p) (pkR : PubKey (RingValue p))
    (m : Bytes) (key : CipherKey p) (r0 : Draws p.B) : Bundle (RingValue p) :=
  { z := t.z, c := t.c, x := blinding pkR t.y (sampleBounded r0) (h.keyOfCipher key),
    eps := h.encrypt m key }

/-- The rejection-sampling loop with `left` attempts left, at attempt number k: attempt k works with
its own key and its own mask (R157 to R162, R160). -/
def signcryptLoop {p : Params} (h : HostFns p) (a : PublicElems (RingValue p))
    (sk : SecKey (RingValue p)) (pkS pkR : PubKey (RingValue p)) (m : Bytes)
    (masks : Nat → Draws p.B) (r0 : Draws p.B) : Nat → Nat → SigncryptResult p
  | 0, _ => .fatalConfiguration
  | left + 1, k =>
    match attempt h a sk pkS pkR m (h.hostRng k) (masks k) with
    | none => .fatalInternal
    | some t =>
      if t.accepted then .bundle (t.toBundle h pkR m (h.hostRng k) r0)
      else signcryptLoop h a sk pkS pkR m masks r0 left (k + 1)

/-- Signcrypt, given the oracle's answers for the masks of the attempts and for the blinding (R156 to
R162). -/
def signcrypt {p : Params} (h : HostFns p) (a : PublicElems (RingValue p)) (sk : SecKey (RingValue p))
    (pkS pkR : PubKey (RingValue p)) (m : Bytes) (masks : Nat → Draws p.B) (r0 : Draws p.B) :
    SigncryptResult p :=
  signcryptLoop h a sk pkS pkR m masks r0 h.maxAttempts 0

/-- The call of Signcrypt with the receiver's key as it arrived (R168). -/
def signcryptCall {p : Params} (h : HostFns p) (a : PublicElems (RingValue p))
    (sk : SecKey (RingValue p)) (pkS : PubKey (RingValue p)) (pkR : PubKey RawRing) (m : Bytes)
    (masks : Nat → Draws p.B) (r0 : Draws p.B) : SigncryptResult p :=
  match PubKey.ofRaw pkR with
  | none => .fatalPrecondition
  | some pkR => signcrypt h a sk pkS pkR m masks r0

/-! ### Unsigncrypt -/

/-- w' = a·z - t·c (R163). -/
def recoverW {p : Params} (a t z c : RingValue p) : RingValue p := (a.mul z).sub (t.mul c)

/-- How Unsigncrypt ends (R166 to R168). -/
inductive UnsigncryptResult where
  | message (m : Bytes)
  /-- the sentinel `FAIL` (R167) -/
  | fail
  /-- malformed input: fatal precondition error, before any protocol logic (R168) -/
  | fatalPrecondition
  deriving DecidableEq, Repr

/-- The message of step 3: any decryption error becomes an arbitrary plaintext (R165). -/
def HostFns.plaintext {p : Params} (h : HostFns p) (eps : Bytes) (key : CipherKey p) : Bytes :=
  (h.decrypt eps key).getD (h.plainAfterError eps key)

/-- Unsigncrypt. An exhausted challenge on received data is `FAIL` (R163 to R168). -/
def unsigncrypt {p : Params} (h : HostFns p) (a : PublicElems (RingValue p))
    (skR : SecKey (RingValue p)) (pkR pkS : PubKey (RingValue p)) (b : Bundle (RingValue p)) :
    UnsigncryptResult :=
  let w1 := recoverW a.a1 pkS.t1 b.z b.c
  let w2 := recoverW a.a2 pkS.t2 b.z b.c
  let key := h.cipherOfKey (b.x.sub (w1.mul skR.s)).decode
  let m := h.plaintext b.eps key
  match challengeHash h w1.compress w2.compress m key pkS pkR with
  | none => .fail
  | some c => if b.c == c && withinBound p b.z then .message m else .fail

/-- The call of Unsigncrypt with the sender's key and the bundle as they arrived (R168). -/
def unsigncryptCall {p : Params} (h : HostFns p) (a : PublicElems (RingValue p))
    (skR : SecKey (RingValue p)) (pkR : PubKey (RingValue p)) (pkS : PubKey RawRing)
    (b : Bundle RawRing) : UnsigncryptResult :=
  match PubKey.ofRaw pkS, Bundle.ofRaw b with
  | some pkS, some b => unsigncrypt h a skR pkR pkS b
  | _, _ => .fatalPrecondition

/-- What decoding finds on top of Encode(K) when the bundle is the sender's own:
N = e1'·y + e1·c·s' + y0 (R170 (c)). -/
def roundTripNoise {p : Params} (skS skR : SecKey (RingValue p)) (c y y0 : RingValue p) :
    RingValue p :=
  ((skR.e1.mul y).add ((skS.e1.mul c).mul skR.s)).add y0

end Sys2Proof.Machine
end

