-- ==== Sys2Proof/Safety.lean ====
section
/-! DEFINITION. What the spec promises of every state (R23, R31, R33), and what a run is, when it is
over, and when it ended well (R225). -/

namespace Sys2Proof.Machine

/-- Canonical form: every slot of every ring register holds a value below q (R23). -/
def State.Canonical (s : State) : Prop := ∀ (k : RegId) (i : Nat), s.slot k i < pSetla.q

/-- The status bits fit together: BUSY = 1 implies DONE = 0 and ERR = 0 (R31), ERRCODE is 0 while
ERR = 0 and one of the three codes while ERR = 1 (R30, R180). -/
def State.StatusOk (s : State) : Prop :=
  (s.busy = true → s.done = false ∧ s.err = false) ∧
    (s.err = false → s.errcode = 0) ∧
    (s.err = true → s.errcode = 1 ∨ s.errcode = 2 ∨ s.errcode = 3)

/-- The invariant of the block. -/
def State.Inv (s : State) : Prop := s.Canonical ∧ s.StatusOk

/-- t is s after a command that wrote ring register rd and completed: slot i of rd holds `f i`, every
slot of every other ring register is unchanged, BUSY is 0 and DONE is 1, and every other register of
the block (KEY, DIGEST, CMD, ERR, ERRCODE, the interrupt enables) is unchanged (R100). Of the
surroundings it says nothing. -/
def State.WroteRing (s t : State) (rd : RegId) (f : Nat → Nat) : Prop :=
  (∀ i < 1024, t.slot rd i = f i) ∧
    (∀ k ≠ rd, ∀ i, t.slot k i = s.slot k i) ∧
    t = { s with ring := t.ring, busy := false, done := true, env := t.env }

/-- Ternary digit i of a digest, least significant first (R132 (e), R134). -/
def ternaryDigit (v i : Nat) : Nat := v / 3 ^ i % 3

/-- Position i is a digit of the shortest base-3 form of v (a leading zero is no digit, R134), and it
adds to the weight: it is not 1 (R131). -/
def weighsAt (v i : Nat) : Bool := 3 ^ i ≤ v && ternaryDigit v i != 1

/-- The weight that the first m digits of v reach (R131, R133). -/
def weightOfFirst (v m : Nat) : Nat := ((List.range m).filter (weighsAt v)).length

/-- The machine just after reset with a host's turns ahead of it: the start of a run (R225). -/
def State.startRun (turns : List Turn) : State := State.reset.setTurns turns

/-- A turn in which the host's program performs a transaction (R50, R225). -/
def Turn.isTransaction : Turn → Bool
  | .port _ => true
  | .hardReset | .unit | .entropy _ => false

/-- The host's program has performed its last transaction: whatever turns are left are not its own. -/
def State.hostDone (s : State) : Bool := s.env.turns.all fun t => !t.isTransaction

/-- A run is over when the host program has performed its last transaction and the unit is not busy
(R225). -/
def State.Over (s : State) : Prop := s.hostDone = true ∧ s.busy = false

/-- The state in which the run that is now in s is over, looked for within k steps: the FIRST state
that is over, so that a later reset of the platform makes no error end a good one (R225). -/
def State.endWithin : Nat → State → Option State
  | k, s =>
    if s.hostDone && !s.busy then some s
    else
      match k with
      | 0 => none
      | k + 1 =>
        match step s with
        | .next t => State.endWithin k t
        | .fault _ | .refused _ => none

/-- The run with these turns is over in state t (R225). -/
def RunEndsIn (turns : List Turn) (t : State) : Prop := ∃ k, (State.startRun turns).endWithin k = some t

/-- The run with these turns ended well: it is over in the idle state and no transaction of the
program was answered `buserr` (R225). -/
def RunEndedWell (turns : List Turn) : Prop :=
  ∃ t, RunEndsIn turns t ∧ t.unitState = .idle ∧ Response.buserr ∉ t.env.responses

/-- A busy unit whose sampling command waits for an oracle that does not answer: stuck, neither over
nor faulted, whatever turns are left (R114, R225, U5). -/
def State.Stuck (s : State) : Prop :=
  s.busy = true ∧ s.env.entropyReady = false ∧ ∃ i, decode s.cmd = some i ∧ i.samples = true

/-- The transactions that take the block out of the error state: a hard reset, or a CTRL write with
bit 31 set (R189, R210). -/
def Turn.resets : Turn → Bool
  | .hardReset => true
  | .port (.write a n v) => a == 0x0000C && n == 4 && v.getLsbD 31
  | .port (.read _ _) | .unit | .entropy _ => false

end Sys2Proof.Machine
end

