-- ==== Sys2Proof/Certificates/Slice0/Obligations.lean ====
section
/-! DEFINITION. The statements for the provers. Numbers are those of the configuration `P_SETLA` (R6, R7): n = 1024,
q = 33550337, HALF = 16775168, QUART - 1 = 8387584, q - QUART = 25162752, 2^d = 32768, 2^(d-1) = 16384. A clause about
`env` (`t.env = s.env`) is the frame of the model's own fields, log entries 1, 2, 4 and 5; the rule cited says nothing of
them. Where a docstring says "the spec's inference", the sentence formalised stands in spec/ under a [derived] mark. -/

open Sys2Proof Sys2Proof.Machine

/-! ### Reset and the invariant -/

/-- R211: after a reset of the block, from any state, every ring slot, KEY, DIGEST, CMD, STATUS and CTRL are 0 and irq is
low; and the state the machine starts in is such a state. -/
def Obligations.ResetClearsEveryRegister : Prop :=
  ∀ s : State,
    (∀ k i, s.resetBlock.slot k i = 0) ∧ s.resetBlock.key = 0 ∧ s.resetBlock.digest = 0 ∧ s.resetBlock.cmd = 0 ∧
    s.resetBlock.busy = false ∧ s.resetBlock.done = false ∧ s.resetBlock.err = false ∧ s.resetBlock.errcode = 0 ∧
    s.resetBlock.ieDone = false ∧ s.resetBlock.ieErr = false ∧
    s.resetBlock.statusWord = 0 ∧ s.resetBlock.ctrlWord = 0 ∧ s.resetBlock.irq = false ∧
    State.reset.resetBlock = State.reset

/-- R210, R35: the hard reset and a CTRL write with bit 31 set are each one step, available in every state of the unit,
with the same effect on the block; the write is answered `ok`. That the surroundings (`env`) outlive it is the model's own
choice, log entries 1, 2, 4 and 5. -/
def Obligations.HardAndSoftResetAgree : Prop :=
  ∀ (s : State) (ts : List Turn) (v : Word), v.getLsbD 31 = true →
    (s.env.turns = .hardReset :: ts →
      step s = .next { State.reset with env := { s.env with turns := ts } }) ∧
    (s.env.turns = .port (.write 0x0000C 4 v) :: ts →
      step s = .next { State.reset with env := { s.env with turns := ts, responses := .ok :: s.env.responses } })

/-- The spec's inference ("It holds at reset (all zero)", 10_state.md, canonical-form invariant), with the status bits at
their reset values of R40: the state after reset meets the invariant of the block. -/
def Obligations.ResetStateMeetsBlockInvariant : Prop := State.reset.Inv

/-- The spec's inferences "At every instant every slot of every ring register holds a value v with 0 <= v < q" and "BUSY =
1 implies DONE = 0 and ERR = 0" (10_state.md), and the codes of 60_exceptions.md: every step keeps the invariant of the
block, that is, slots stay below q, BUSY = 1 implies DONE = 0 and ERR = 0, and ERRCODE is 0 without an error and a fault's
code with one. -/
def Obligations.StepKeepsBlockInvariant : Prop :=
  ∀ s t : State, s.Inv → step s = .next t → t.Inv

/-- "every such transaction has a defined outcome" (70_reset_and_hazards.md, the host's liberties); that a next state is the
only outcome a turn needs, and that a unit with nothing to do leaves the state as it is, are the model's, log entries 6 and
1: every state has a next state, no transaction, command or turn of any agent stops the machine. -/
def Obligations.EveryStepAnswersANextState : Prop :=
  ∀ s : State, ∃ t, step s = .next t

/-! ### Encoding -/

/-- V1: words written out from the field layout of R81 and the opcode map of R85 decode to the commands they stand for,
and illegal words do not decode. -/
def Obligations.WrittenOutWordsDecode : Prop :=
  decode 0x00002131 = some (.add 3 1 2) ∧ decode 0x00002132 = some (.sub 3 1 2) ∧ decode 0x00002043 = some (.mul 4 0 2) ∧
  decode 0x80000054 = some (.sampleb 5 32768) ∧ decode 0xFFFF00F4 = some (.sampleb 15 65535) ∧
  decode 0x00000005 = some (.sampleu 0) ∧ decode 0x00000466 = some (.compress 6 4) ∧ decode 0x00000077 = some (.chash 7) ∧
  decode 0x00000088 = some (.encode 8) ∧ decode 0x00000909 = some (.decode 9) ∧
  decode 0x00000000 = none ∧ decode 0xFFFFFFFF = none ∧ decode 0x00010001 = none ∧ decode 0x00000019 = none

/-- The spec's inference `decode(encode(c)) = c` (30_encoding.md, the decoder): the decoder undoes the encoder on every
well-formed command. -/
def Obligations.EncodedCommandDecodesBack : Prop :=
  ∀ i : Instr, i.wellFormed = true → decode (encode i) = some i

/-- The spec's inference `encode(decode(w)) = w` (30_encoding.md, the decoder): the encoder undoes the decoder on every
legal word, and what is decoded is well-formed. -/
def Obligations.DecodedWordEncodesBack : Prop :=
  ∀ (w : Word) (i : Instr), decode w = some i → encode i = w ∧ i.wellFormed = true

/-- R86: a word is the command of a row of the opcode table, with the operands that stand in the pattern's letters,
exactly when it agrees with the row's mask and match value; a word that matches no row is illegal. -/
def Obligations.LegalWordsMatchTheOpcodeTable : Prop :=
  ∀ (w : Word) (rd rs1 rs2 : RegId) (imm : Nat),
    (decode w = some (.add rd rs1 rs2) ↔ w &&& 0xFFFF000F = 0x00000001 ∧
      bits w 7 4 = rd ∧ bits w 11 8 = rs1 ∧ bits w 15 12 = rs2) ∧
    (decode w = some (.sub rd rs1 rs2) ↔ w &&& 0xFFFF000F = 0x00000002 ∧
      bits w 7 4 = rd ∧ bits w 11 8 = rs1 ∧ bits w 15 12 = rs2) ∧
    (decode w = some (.mul rd rs1 rs2) ↔ w &&& 0xFFFF000F = 0x00000003 ∧
      bits w 7 4 = rd ∧ bits w 11 8 = rs1 ∧ bits w 15 12 = rs2) ∧
    (decode w = some (.sampleb rd imm) ↔ w &&& 0x0000FF0F = 0x00000004 ∧ bits w 7 4 = rd ∧ bits w 31 16 = imm) ∧
    (decode w = some (.sampleu rd) ↔ w &&& 0xFFFFFF0F = 0x00000005 ∧ bits w 7 4 = rd) ∧
    (decode w = some (.compress rd rs1) ↔ w &&& 0xFFFFF00F = 0x00000006 ∧ bits w 7 4 = rd ∧ bits w 11 8 = rs1) ∧
    (decode w = some (.chash rd) ↔ w &&& 0xFFFFFF0F = 0x00000007 ∧ bits w 7 4 = rd) ∧
    (decode w = some (.encode rd) ↔ w &&& 0xFFFFFF0F = 0x00000008 ∧ bits w 7 4 = rd) ∧
    (decode w = some (.decode rs1) ↔ w &&& 0xFFFFF0FF = 0x00000009 ∧ bits w 11 8 = rs1) ∧
    (decode w = none ↔
      w &&& 0xFFFF000F ≠ 0x00000001 ∧ w &&& 0xFFFF000F ≠ 0x00000002 ∧ w &&& 0xFFFF000F ≠ 0x00000003 ∧
      w &&& 0x0000FF0F ≠ 0x00000004 ∧ w &&& 0xFFFFFF0F ≠ 0x00000005 ∧ w &&& 0xFFFFF00F ≠ 0x00000006 ∧
      w &&& 0xFFFFFF0F ≠ 0x00000007 ∧ w &&& 0xFFFFFF0F ≠ 0x00000008 ∧ w &&& 0xFFFFF0FF ≠ 0x00000009)

/-! ### The Execute step -/

/-- R67: when a command is pending and its word decodes, the step that is the unit's turn is exec of the decoded command.
The turn is the unit's when the list of turns is empty or begins with it; in the second case that turn is used up (log
entry 1). -/
def Obligations.StepRunsThePendingCommand : Prop :=
  ∀ (s : State) (i : Instr), s.busy = true → decode s.cmd = some i →
    (s.env.turns = [] → step s = exec i s) ∧
    (∀ ts, s.env.turns = .unit :: ts → step s = exec i { s with env := { s.env with turns := ts } })

/-- R181, R183: when the pending word does not decode, the unit's step raises ILLEGAL_CMD: ERR = 1, ERRCODE = 1, BUSY = 0,
and nothing else changes (the turn is used up, log entry 1). -/
def Obligations.UndecodableWordRaisesIllegalCmd : Prop :=
  ∀ s : State, s.busy = true → decode s.cmd = none →
    (s.env.turns = [] → step s = .next { s with err := true, errcode := 1, busy := false }) ∧
    (∀ ts, s.env.turns = .unit :: ts →
      step s = .next { s with err := true, errcode := 1, busy := false, env := { s.env with turns := ts } })

/-- R183: raising a fault with code e, in each of the three places that raise one, sets ERR, sets ERRCODE to e, clears
BUSY and changes nothing else; irq is then high if IE_ERR is 1. -/
def Obligations.FaultEntryChangesOnlyStatus : Prop :=
  ∀ s : State,
    (decode s.cmd = none → s.execute = .next { s with err := true, errcode := 1, busy := false }) ∧
    (∀ rd, decode s.cmd = some (.chash rd) → weightOfFirst s.digest.toNat 324 < 16 →
      s.execute = .next { s with err := true, errcode := 2, busy := false }) ∧
    (∀ (k : RegId) (i : Nat) (v : Word), i < 1024 → s.busy = false → s.err = false → 33550337 ≤ v.toNat →
      s.access (.write (0x10000 + 0x1000 * k + 4 * i) 4 v) =
        ({ s with err := true, errcode := 3, busy := false }, .ok)) ∧
    (s.ieErr = true → ∀ e, State.irq { s with err := true, errcode := e, busy := false } = true)

/-- "Nothing outside can preempt, suspend or cancel a pending command except reset" (60_exceptions.md, the interrupt
output): while a command is pending, a turn that is neither the unit's nor a reset leaves it pending: of the block only
DONE and the interrupt enables may change. -/
def Obligations.OnlyExecuteOrResetEndsAPendingCommand : Prop :=
  ∀ (s t : State) (h : Turn) (ts : List Turn), s.busy = true → s.env.turns = h :: ts → h ≠ .unit → h.resets = false →
    step s = .next t → t = { s with done := t.done, ieDone := t.ieDone, ieErr := t.ieErr, env := t.env }

/-- "No host write clears them; only reset does" (10_state.md, ERR and ERRCODE; the turns are the model's, log entry 1):
in the error state a step either is a reset, which gives the block its reset values, or leaves the error, its code, CMD
and all data state as they are. -/
def Obligations.ErrorStateEndsOnlyByReset : Prop :=
  ∀ s t : State, s.Inv → s.err = true → step s = .next t →
    if s.env.turns.head?.any Turn.resets = true then t = { State.reset with env := t.env }
    else t = { s with done := t.done, ieDone := t.ieDone, ieErr := t.ieErr, env := t.env }

/-- R100 (b): a command writes no ring register but its destination, and KEY only if it is DECODE; no command writes
DIGEST, CMD or the interrupt enables, or touches the turns, the responses or the oracle's readiness. -/
def Obligations.CommandsWriteOneDestination : Prop :=
  ∀ (i : Instr) (s t : State), exec i s = .next t →
    (∀ k, i.destReg ≠ some k → ∀ j, t.slot k j = s.slot k j) ∧
    ((∀ rs1, i ≠ .decode rs1) → t.key = s.key) ∧
    t.digest = s.digest ∧ t.cmd = s.cmd ∧ t.ieDone = s.ieDone ∧ t.ieErr = s.ieErr ∧
    t.env.turns = s.env.turns ∧ t.env.responses = s.env.responses ∧ t.env.entropyReady = s.env.entropyReady

/-- R100 (c), (d), (e): a command ends with BUSY = 0, DONE = 1 and the error bits as they were; or it is CHASH and raises
CHASH_EXHAUSTED, changing nothing else; or it samples while the oracle is silent and changes nothing (R114; that the
oracle may be silent is a field of the model, log entry 4). -/
def Obligations.CommandsCompleteFaultOrWait : Prop :=
  ∀ (i : Instr) (s t : State), exec i s = .next t →
    (t.busy = false ∧ t.done = true ∧ t.err = s.err ∧ t.errcode = s.errcode) ∨
    ((∃ rd, i = .chash rd) ∧ t = { s with err := true, errcode := 2, busy := false }) ∨
    (i.samples = true ∧ s.env.entropyReady = false ∧ t = s)

/-- The spec's inference "Every other command is a function of the state" (41_sampler.md, the only source of
non-determinism): what surrounds the block, the model's `env` with the oracle in it (log entries 2 and 4), has no
influence on the effect of a command that does not sample. -/
def Obligations.OnlySamplingDependsOnTheOracle : Prop :=
  ∀ (i : Instr) (s t : State) (e : Env), i.samples = false → exec i s = .next t →
    exec i { s with env := e } = .next { t with env := e }

/-! ### What each command computes -/

/-- R101: ADD writes the coefficientwise sum modulo q and changes nothing else but BUSY and DONE; its word is of format F3
with opcode 1. -/
def Obligations.AddWritesSumModuloQ : Prop :=
  ∀ (rd rs1 rs2 : RegId) (s : State), ∃ t, exec (.add rd rs1 rs2) s = .next t ∧
    s.WroteRing t rd (fun i => (s.slot rs1 i + s.slot rs2 i) % 33550337) ∧ t.env = s.env ∧
    encode (.add rd rs1 rs2) = BitVec.ofNat 32 (rs2.val * 2 ^ 12 + rs1.val * 2 ^ 8 + rd.val * 2 ^ 4 + 1)

/-- R102: SUB writes the coefficientwise difference, first source minus second, reduced to [0, q) by the floored
remainder; its word is of format F3 with opcode 2. -/
def Obligations.SubWritesDifferenceModuloQ : Prop :=
  ∀ (rd rs1 rs2 : RegId) (s : State), ∃ t, exec (.sub rd rs1 rs2) s = .next t ∧
    s.WroteRing t rd (fun i => (((s.slot rs1 i : Int) - (s.slot rs2 i : Int)) % 33550337).toNat) ∧ t.env = s.env ∧
    encode (.sub rd rs1 rs2) = BitVec.ofNat 32 (rs2.val * 2 ^ 12 + rs1.val * 2 ^ 8 + rd.val * 2 ^ 4 + 2)

/-- R103: MUL writes the negacyclic convolution modulo q: a term that wraps past x^(n-1) enters with a minus sign; its
word is of format F3 with opcode 3. -/
def Obligations.MulWritesNegacyclicConvolution : Prop :=
  ∀ (rd rs1 rs2 : RegId) (s : State), ∃ t, exec (.mul rd rs1 rs2) s = .next t ∧
    s.WroteRing t rd (fun k =>
      ((∑ i ∈ Finset.range 1024,
        if i ≤ k then (s.slot rs1 i : Int) * (s.slot rs2 (k - i) : Int)
        else -((s.slot rs1 i : Int) * (s.slot rs2 (1024 + k - i) : Int))) % 33550337).toNat) ∧ t.env = s.env ∧
    encode (.mul rd rs1 rs2) = BitVec.ofNat 32 (rs2.val * 2 ^ 12 + rs1.val * 2 ^ 8 + rd.val * 2 ^ 4 + 3)

/-- R111: SAMPLEB, when the oracle answers, writes in each lane the canonical residue of that lane's own draw; the draw
lies in [-imm, imm] and is the balanced representative of what is stored. That the oracle is answering is a field of the
model (log entry 4), and so is the count of draws used (log entry 2). -/
def Obligations.SamplebWritesResiduesOfBoundedDraws : Prop :=
  ∀ (rd : RegId) (imm : Nat) (s : State), imm < 65536 → s.env.entropyReady = true →
    ∃ t, exec (.sampleb rd imm) s = .next t ∧
      s.WroteRing t rd (fun i => (s.laneDraw (-(imm : Int)) imm i % 33550337).toNat) ∧
      (∀ i < 1024, -(imm : Int) ≤ s.laneDraw (-(imm : Int)) imm i ∧ s.laneDraw (-(imm : Int)) imm i ≤ imm ∧
        bal pSetla (t.slot rd i) = s.laneDraw (-(imm : Int)) imm i) ∧
      t.env = { s.env with draws := s.env.draws + 1024 }

/-- R112: SAMPLEU, when the oracle answers, writes in each lane that lane's own draw from [0, q - 1]. The oracle's
readiness and the count of draws are the model's (log entries 4 and 2). -/
def Obligations.SampleuWritesDrawsBelowQ : Prop :=
  ∀ (rd : RegId) (s : State), s.env.entropyReady = true →
    ∃ t, exec (.sampleu rd) s = .next t ∧
      s.WroteRing t rd (fun i => (s.laneDraw 0 33550336 i).toNat) ∧
      (∀ i < 1024, 0 ≤ s.laneDraw 0 33550336 i ∧ s.laneDraw 0 33550336 i ≤ 33550336) ∧
      t.env = { s.env with draws := s.env.draws + 1024 }

/-- R16, R110: the answers the model's oracle can give to a request are the integers of its interval, all of them and no
other. The free value behind an answer is the model's, log entry 2. -/
def Obligations.OracleAnswersFillTheInterval : Prop :=
  ∀ lo hi r : Int, lo ≤ hi → ((∃ free : Nat, answerIn free lo hi = r) ↔ lo ≤ r ∧ r ≤ hi)

/-- R114: while the oracle does not answer, a sampling command has no effect at all, and a unit that is stuck on one stays
as it is: its own turn changes nothing but the list of turns. That the oracle may be silent is a field of the model, log entry
4, and so are the turns, log entry 1. -/
def Obligations.SilentOracleLeavesTheCommandPending : Prop :=
  (∀ (i : Instr) (s : State), i.samples = true → s.env.entropyReady = false → exec i s = .next s) ∧
  (∀ s : State, s.Stuck →
    (s.env.turns = [] → step s = .next s) ∧
    ∀ ts, s.env.turns = .unit :: ts → step s = .next { s with env := { s.env with turns := ts } })

/-- R121: COMPRESS writes (x - t) / 2^d, t being the low d bits of x mapped to (-2^(d-1), 2^(d-1)]; its word is of format
F2 with opcode 6. -/
def Obligations.CompressWritesRoundedCoefficients : Prop :=
  ∀ (rd rs1 : RegId) (s : State), ∃ t, exec (.compress rd rs1) s = .next t ∧
    s.WroteRing t rd (fun i =>
      (((s.slot rs1 i : Int) -
        (if s.slot rs1 i % 32768 ≤ 16384 then ((s.slot rs1 i % 32768 : Nat) : Int)
          else ((s.slot rs1 i % 32768 : Nat) : Int) - 32768)) / 32768).toNat) ∧ t.env = s.env ∧
    encode (.compress rd rs1) = BitVec.ofNat 32 (rs1.val * 2 ^ 8 + rd.val * 2 ^ 4 + 6)

/-- R131: when the digits of DIGEST reach the weight 16, CHASH writes digit - 1 modulo q in the positions up to and
including the digit that reaches it, and 0 in the rest; otherwise it raises CHASH_EXHAUSTED and writes no data state;
DIGEST is unchanged either way; its word is of format FD with opcode 7. -/
def Obligations.ChashWritesDigitsUntilTheWeight : Prop :=
  ∀ (rd : RegId) (s : State),
    (16 ≤ weightOfFirst s.digest.toNat 324 →
      ∃ m t, 1 ≤ m ∧ m ≤ 324 ∧ weightOfFirst s.digest.toNat m = 16 ∧ weightOfFirst s.digest.toNat (m - 1) = 15 ∧
        exec (.chash rd) s = .next t ∧
        s.WroteRing t rd (fun i =>
          if i < m then (((ternaryDigit s.digest.toNat i : Int) - 1) % 33550337).toNat else 0) ∧ t.env = s.env) ∧
    (weightOfFirst s.digest.toNat 324 < 16 →
      exec (.chash rd) s = .next { s with err := true, errcode := 2, busy := false }) ∧
    encode (.chash rd) = BitVec.ofNat 32 (rd.val * 2 ^ 4 + 7)

/-- The spec's inference on which digests exhaust (43_challenge_hash.md: "fewer than omega digits different from 1"):
CHASH faults, with ERR raised from 0, exactly when the digits of DIGEST do not reach the weight 16. -/
def Obligations.ChashFaultsExactlyOnLightDigests : Prop :=
  ∀ (rd : RegId) (s t : State), s.err = false → exec (.chash rd) s = .next t →
    (t.err = true ↔ weightOfFirst s.digest.toNat 324 < 16)

/-- The spec's inferences on a CHASH result (43_challenge_hash.md, properties (a) to (e)): a CHASH that completes without
fault gives slots 0, 1 or q - 1, exactly 16 of them nonzero, all among the m digits consumed, 16 <= m <= 324, the last of
which is nonzero; slot i below m is digit i minus 1; and the result depends on DIGEST alone. -/
def Obligations.CompletedChallengeIsSparse : Prop :=
  ∀ (rd : RegId) (s t : State), exec (.chash rd) s = .next t → t.err = false →
    (∀ i, t.slot rd i = 0 ∨ t.slot rd i = 1 ∨ t.slot rd i = 33550336) ∧
    ((List.range 1024).filter (fun i => t.slot rd i != 0)).length = 16 ∧
    ((List.range 1024).map (fun i => (bal pSetla (t.slot rd i)).natAbs)).sum = 16 ∧
    (∃ m, 16 ≤ m ∧ m ≤ 324 ∧ t.slot rd (m - 1) ≠ 0 ∧ (∀ i, m ≤ i → t.slot rd i = 0) ∧
      ∀ i < m, bal pSetla (t.slot rd i) = (ternaryDigit s.digest.toNat i : Int) - 1) ∧
    (∀ s' : State, s'.digest = s.digest →
      ∃ t', exec (.chash rd) s' = .next t' ∧ ∀ i, t'.slot rd i = t.slot rd i)

/-- R141: ENCODE writes KEY.bit(i) * HALF in lanes 0 to 255 and 0 above; KEY is unchanged; its word is of format FD with
opcode 8. -/
def Obligations.EncodeWritesKeyBitsTimesHalf : Prop :=
  ∀ (rd : RegId) (s : State), ∃ t, exec (.encode rd) s = .next t ∧
    s.WroteRing t rd (fun i => if i < 256 then (s.key.getLsbD i).toNat * 16775168 else 0) ∧ t.env = s.env ∧
    encode (.encode rd) = BitVec.ofNat 32 (rd.val * 2 ^ 4 + 8)

/-- R142: DECODE writes KEY.bit(i) = 1 exactly when the canonical residue in lane i lies strictly between QUART - 1 and q
- QUART; it writes no ring register and changes nothing else but BUSY and DONE; its word is of format FS with opcode 9. -/
def Obligations.DecodeWritesThresholdBitsToKey : Prop :=
  ∀ (rs1 : RegId) (s : State), ∃ t, exec (.decode rs1) s = .next t ∧
    (∀ i < 256, t.key.getLsbD i = decide (8387584 < s.slot rs1 i ∧ s.slot rs1 i < 25162752)) ∧
    t = { s with key := t.key, busy := false, done := true } ∧
    encode (.decode rs1) = BitVec.ofNat 32 (rs1.val * 2 ^ 8 + 9)

/-! ### What follows from the commands' rules -/

/-- The spec's inference "Closed form and range" (42_compress.md): in every well-formed configuration COMPRESS rounds to
nearest with ties down; it is floor((x + 2^(d-1) - 1) / 2^d), it is at most CMAX, it takes the value k exactly on the k-th
bucket, and it does not decrease; CMAX is 1024 under P_SETLA. -/
def Obligations.CompressRoundsToNearestBucket : Prop :=
  (∀ p : Params, p.WellFormed → ∀ x < p.q,
    compressLane p x = (if x % 2 ^ p.d ≤ 2 ^ (p.d - 1) then x / 2 ^ p.d else x / 2 ^ p.d + 1) ∧
    compressLane p x = (x + 2 ^ (p.d - 1) - 1) / 2 ^ p.d ∧
    compressLane p x ≤ p.cmax ∧
    (∀ k : Nat, compressLane p x = k ↔ k * 2 ^ p.d < x + 2 ^ (p.d - 1) ∧ x ≤ k * 2 ^ p.d + 2 ^ (p.d - 1)) ∧
    ∀ y ≤ x, compressLane p y ≤ compressLane p x) ∧
  pSetla.cmax = 1024 ∧ compressLane pSetla 33550336 = 1024

/-- The spec's inference "The agreement property, exactly" (42_compress.md): around the centre of a bucket, x = k * 2^d,
COMPRESS agrees on x and x + delta exactly for -16383 <= delta <= 16384; and at the upper edge of a bucket delta = 1
already changes the result. -/
def Obligations.CompressAgreesWithinTheMargin : Prop :=
  (∀ (k : Nat) (delta : Int), k * 32768 < 33550337 → 0 ≤ (k : Int) * 32768 + delta →
    (k : Int) * 32768 + delta < 33550337 →
    (compressLane pSetla ((k : Int) * 32768 + delta).toNat = compressLane pSetla (k * 32768) ↔
      -16383 ≤ delta ∧ delta ≤ 16384)) ∧
  ∀ k : Nat, k * 32768 + 16384 + 1 < 33550337 →
    compressLane pSetla (k * 32768 + 16384 + 1) ≠ compressLane pSetla (k * 32768 + 16384)

/-- The spec's inference "Noise margins, exactly" (44_key_codec.md): with lane i holding KEY.bit(i) * HALF plus a noise
delta modulo q, DECODE recovers a bit 1 exactly for -8387583 <= delta <= 8387583 and a bit 0 exactly for -8387585 <= delta
<= 8387584. -/
def Obligations.DecodeNoiseMarginsAreExact : Prop :=
  ∀ (rs1 : RegId) (s : State) (i : Nat) (b : Bool) (delta : Int), i < 256 → -16775168 ≤ delta → delta ≤ 16775168 →
    s.slot rs1 i = (((b.toNat * 16775168 : Nat) + delta : Int) % 33550337).toNat →
    ∃ t, exec (.decode rs1) s = .next t ∧
      (b = true → (t.key.getLsbD i = true ↔ -8387583 ≤ delta ∧ delta ≤ 8387583)) ∧
      (b = false → (t.key.getLsbD i = false ↔ -8387585 ≤ delta ∧ delta ≤ 8387584))

/-- The spec's inference on the balanced form of the decision (44_key_codec.md, the thresholds): on a canonical residue,
DECODE's test is the test b >= QUART or b <= -(QUART + 1) on the balanced representative b. -/
def Obligations.DecodeTestOnBalancedRepresentative : Prop :=
  ∀ v < 33550337, (decodeBit pSetla v = true ↔ 8387585 ≤ bal pSetla v ∨ bal pSetla v ≤ -8387586)

/-- The spec's inference "Round trip" (44_key_codec.md): ENCODE Ra followed by DECODE Ra leaves KEY as it was, for every
key. -/
def Obligations.DecodeRecoversTheEncodedKey : Prop :=
  ∀ (ra : RegId) (s : State), ∃ t u, exec (.encode ra) s = .next t ∧ exec (.decode ra) t = .next u ∧ u.key = s.key

/-- The second form of the rule of MUL (40_ring_arith.md, "Equivalently: form the ordinary polynomial product"): the
product is the ordinary polynomial product reduced by x^n = -1: lane k is p[k] - p[k+n] modulo q. -/
def Obligations.MulFoldsThePolynomialProduct : Prop :=
  ∀ (p : Params) (a b : RingElem p), p.WellFormed → ∀ k < p.n,
    lane (ringMul p a b) k =
      (((∑ i ∈ Finset.range p.n, if i ≤ k ∧ k - i < p.n then (lane a i : Int) * (lane b (k - i) : Int) else 0) -
        (∑ i ∈ Finset.range p.n,
          if i ≤ k + p.n ∧ k + p.n - i < p.n then (lane a i : Int) * (lane b (k + p.n - i) : Int) else 0)) % p.q).toNat

/-- The spec's inference "Laws of the three commands" (a) (40_ring_arith.md), the part about + and -: on canonical ring
elements ADD commutes and associates, the zero element is its unit, a - a = 0 and (a - b) + b = a. -/
def Obligations.AdditionAndSubtractionLaws : Prop :=
  ∀ (p : Params) (a b c : RingElem p), p.WellFormed → (∀ i, lane a i < p.q) →
    ringAdd p a b = ringAdd p b a ∧
    ringAdd p (ringAdd p a b) c = ringAdd p a (ringAdd p b c) ∧
    ringAdd p a (vtab p.n fun _ => 0) = a ∧
    ringSub p a a = (vtab p.n fun _ => 0) ∧
    ringAdd p (ringSub p a b) b = a

/-- The spec's inference "Laws of the three commands" (a) (40_ring_arith.md), the part about multiplication but its
associativity: MUL commutes and distributes over ADD and SUB, (1, 0, ...) is its unit and the zero element absorbs. -/
def Obligations.MultiplicationLaws : Prop :=
  ∀ (p : Params) (a b c : RingElem p), p.WellFormed → (∀ i, lane a i < p.q) →
    ringMul p a b = ringMul p b a ∧
    ringMul p a (ringAdd p b c) = ringAdd p (ringMul p a b) (ringMul p a c) ∧
    ringMul p a (ringSub p b c) = ringSub p (ringMul p a b) (ringMul p a c) ∧
    ringMul p a (vtab p.n fun i => if i = 0 then 1 else 0) = a ∧
    ringMul p a (vtab p.n fun _ => 0) = (vtab p.n fun _ => 0)

/-- The spec's inference "Laws of the three commands" (a) (40_ring_arith.md): MUL associates. -/
def Obligations.MultiplicationIsAssociative : Prop :=
  ∀ (p : Params) (a b c : RingElem p), p.WellFormed →
    ringMul p (ringMul p a b) c = ringMul p a (ringMul p b c)

/-- The spec's inference "Laws of the three commands" (b) (40_ring_arith.md): multiplication by x is the negacyclic shift. -/
def Obligations.MultiplyingByXShiftsNegacyclically : Prop :=
  ∀ (p : Params) (a : RingElem p), p.WellFormed → 2 ≤ p.n → (∀ i, lane a i < p.q) →
    lane (ringMul p (vtab p.n fun i => if i = 1 then 1 else 0) a) 0 = ((-(lane a (p.n - 1) : Int)) % p.q).toNat ∧
    ∀ i, 1 ≤ i → i < p.n → lane (ringMul p (vtab p.n fun i => if i = 1 then 1 else 0) a) i = lane a (i - 1)

/-- The spec's inference "Laws of the three commands" (d) (40_ring_arith.md): bounds of a product's balanced lanes: n * A
* Bb for factors within A and Bb, and w * A when the second factor has at most w nonzero lanes, each of absolute balanced
value 1. -/
def Obligations.ProductBoundsOnBalancedLanes : Prop :=
  ∀ (p : Params) (a b : RingElem p) (A Bb w : Nat), p.WellFormed → (∀ i, lane a i < p.q) → (∀ i, lane b i < p.q) →
    (∀ i < p.n, (bal p (lane a i)).natAbs ≤ A) → (∀ i < p.n, (bal p (lane b i)).natAbs ≤ Bb) →
    p.n * A * Bb ≤ (p.q - 1) / 2 →
    (∀ k < p.n, (bal p (lane (ringMul p a b) k)).natAbs ≤ p.n * A * Bb) ∧
    (Bb = 1 → ((List.range p.n).filter (fun i => lane b i != 0)).length ≤ w →
      ∀ k < p.n, (bal p (lane (ringMul p a b) k)).natAbs ≤ w * A)

/-- KeyGen's secret lanes (49_host_protocol.md, "with every lane in {0, 1, q-1}"), and the equations of its public key, in
every well-formed configuration and for every answer the oracle may give within [-1, 1] (log entry 9). -/
def Obligations.KeyGenSecretsAreTernary : Prop :=
  ∀ (p : Params) (a : PublicElems (RingValue p)) (rs re1 re2 : Draws 1), p.WellFormed →
    (∀ v ∈ [(keyGen a rs re1 re2).1.s, (keyGen a rs re1 re2).1.e1, (keyGen a rs re1 re2).1.e2], ∀ i < p.n,
      lane v.coeffs i = 0 ∨ lane v.coeffs i = 1 ∨ lane v.coeffs i = p.q - 1) ∧
    (keyGen a rs re1 re2).2.t1 = (a.a1.mul (keyGen a rs re1 re2).1.s).add (keyGen a rs re1 re2).1.e1 ∧
    (keyGen a rs re1 re2).2.t2 = (a.a2.mul (keyGen a rs re1 re2).1.s).add (keyGen a rs re1 re2).1.e2

/-- "Malformed inputs: fatal precondition violation, rejected before entering protocol logic" (49_host_protocol.md, the error
classes): Signcrypt and Unsigncrypt end so exactly when a ring element that arrived from outside has a wrong length or a
coefficient out of range (arguments of the calls: log entry 9). -/
def Obligations.MalformedInputsAreRejectedBeforeTheProtocol : Prop :=
  ∀ (p : Params) (h : HostFns p) (a : PublicElems (RingValue p)) (sk : SecKey (RingValue p)) (pk : PubKey (RingValue p))
    (other : PubKey RawRing) (b : Bundle RawRing) (m : Bytes) (masks : Nat → Draws p.B) (r0 : Draws p.B),
    (signcryptCall h a sk pk other m masks r0 = .fatalPrecondition ↔
      ∃ r ∈ [other.t1, other.t2], r.length ≠ p.n ∨ ∃ v ∈ r, p.q ≤ v.toNat) ∧
    (unsigncryptCall h a sk pk other b = .fatalPrecondition ↔
      ∃ r ∈ [other.t1, other.t2, b.z, b.c, b.x], r.length ≠ p.n ∨ ∃ v ∈ r, p.q ≤ v.toNat)

/-- The spec's inference (a) on why Unsigncrypt inverts Signcrypt (49_host_protocol.md): what the receiver recomputes, a·z -
t·c, is the sender's a·y - e·c, when t = a·s + e and z = s·c + y: by ring laws alone, for every s, e, c and y. -/
def Obligations.ReceiverRecomputesTheCommitment : Prop :=
  ∀ (p : Params) (a s e c y : RingValue p), p.WellFormed →
    recoverW a ((a.mul s).add e) ((s.mul c).add y) c = (a.mul y).sub (e.mul c)

/-- The spec's inferences (b), (c), (e) on why Unsigncrypt inverts Signcrypt (49_host_protocol.md): the bundle of an accepted
attempt unsigncrypts to the message, for lawful host functions (log entry 9), when every lane below KLEN of the noise N lies
within HALF - QUART in absolute balanced value. -/
def Obligations.AcceptedAttemptUnsigncryptsToTheMessage : Prop :=
  ∀ (p : Params) (h : HostFns p) (a : PublicElems (RingValue p)) (skS skR : SecKey (RingValue p)) (m : Bytes)
    (key : CipherKey p) (r r0 : Draws p.B) (t : Attempt p), p.WellFormed → h.Lawful →
    attempt h a skS (pubOfSec a skS) (pubOfSec a skR) m key r = some t → t.accepted = true →
    (∀ i < p.klen,
      (bal p (lane (roundTripNoise skS skR t.c t.y (sampleBounded r0)).coeffs i)).natAbs ≤ p.half - p.quart) →
    unsigncrypt h a skR (pubOfSec a skR) (pubOfSec a skS) (t.toBundle h (pubOfSec a skR) m key r0) = .message m

/-! ### The host port -/

/-- R29, R36: in every state ID and PARAM_* read their constants, and a write of any of them is refused and changes
nothing. -/
def Obligations.ConstantRegistersReadAndRefuseWrites : Prop :=
  ∀ (s : State) (v : Word),
    (s.access (.read 0x00004 4) = (s, .data 0x53455401) ∧ s.access (.read 0x00010 4) = (s, .data 0x00000400) ∧
      s.access (.read 0x00014 4) = (s, .data 0x01FFF001) ∧ s.access (.read 0x00018 4) = (s, .data 0x00000010) ∧
      s.access (.read 0x0001C 4) = (s, .data 0x0000000F) ∧ s.access (.read 0x00020 4) = (s, .data 0x00008000) ∧
      s.access (.read 0x00024 4) = (s, .data 0x00000100)) ∧
    ∀ a ∈ [0x00004, 0x00010, 0x00014, 0x00018, 0x0001C, 0x00020, 0x00024], s.access (.write a 4 v) = (s, .buserr)

/-- R28: a CMD write while the unit is idle without error issues the word whatever it is, and while it is busy or in error
it is refused and changes nothing; a read returns CMD in every state. -/
def Obligations.CmdWriteIssuesOrIsRefused : Prop :=
  ∀ (s : State) (w : Word),
    (s.busy = false → s.err = false →
      s.access (.write 0x00000 4 w) = ({ s with cmd := w, done := false, busy := true }, .ok)) ∧
    (s.busy = true ∨ s.err = true → s.access (.write 0x00000 4 w) = (s, .buserr)) ∧
    s.access (.read 0x00000 4) = (s, .data s.cmd)

/-- R30: in every state STATUS reads BUSY, DONE, ERR and ERRCODE in bits 0, 1, 2 and 11:8 and zero elsewhere; a write
clears DONE when its bit 1 is set and otherwise changes nothing. -/
def Obligations.StatusReadsFieldsAndWriteClearsDone : Prop :=
  ∀ (s : State) (v : Word),
    (∃ w, s.access (.read 0x00008 4) = (s, .data w) ∧ w.getLsbD 0 = s.busy ∧ w.getLsbD 1 = s.done ∧
      w.getLsbD 2 = s.err ∧ (∀ j < 4, w.getLsbD (8 + j) = s.errcode.getLsbD j) ∧
      ∀ j, (3 ≤ j ∧ j < 8) ∨ 12 ≤ j → w.getLsbD j = false) ∧
    s.access (.write 0x00008 4 v) = (if v.getLsbD 1 then { s with done := false } else s, .ok)

/-- R34, R35, and CTRL is 0 at reset: in every state CTRL reads the two enables in bits 0 and 1 and zero elsewhere; a
write with bit 31 clear sets the enables from bits 0 and 1; a write with bit 31 set resets the block, the other bits of
the word being discarded. -/
def Obligations.CtrlWriteSetsEnablesOrResets : Prop :=
  ∀ (s : State) (v : Word),
    (∃ w, s.access (.read 0x0000C 4) = (s, .data w) ∧ w.getLsbD 0 = s.ieDone ∧ w.getLsbD 1 = s.ieErr ∧
      ∀ j, 2 ≤ j → w.getLsbD j = false) ∧
    (v.getLsbD 31 = false →
      s.access (.write 0x0000C 4 v) = ({ s with ieDone := v.getLsbD 0, ieErr := v.getLsbD 1 }, .ok)) ∧
    (v.getLsbD 31 = true → s.access (.write 0x0000C 4 v) = ({ State.reset with env := s.env }, .ok)) ∧
    State.reset.ctrlWord = 0

/-- R37: irq is low after reset, and high exactly when DONE and IE_DONE are both 1 or ERR and IE_ERR are both 1, as STATUS
and CTRL read. -/
def Obligations.InterruptIsLevelOfStatusAndCtrl : Prop :=
  State.reset.irq = false ∧
  ∀ s : State, s.irq = true ↔
    (s.statusWord.getLsbD 1 = true ∧ s.ctrlWord.getLsbD 0 = true) ∨
    (s.statusWord.getLsbD 2 = true ∧ s.ctrlWord.getLsbD 1 = true)

/-- R57: the word at address 0x10000 + 0x1000*k + 4*i is R[k][i]: a unit that is not busy reads it there, zero-extended,
and an idle unit without error takes a canonical residue there into R[k][i] and changes no other slot and no other
register; the address bits 15:12 and 11:2 are k and i. -/
def Obligations.RingSlotWriteAndRead : Prop :=
  ∀ (s : State) (a : Nat) (v : Word), 0x10000 ≤ a → a ≤ 0x1FFFF → a % 4 = 0 → s.busy = false →
    ∃ (k : RegId) (i : Nat), a = 0x10000 + 0x1000 * k + 4 * i ∧ i < 1024 ∧ (k : Nat) = a / 2 ^ 12 % 16 ∧
      i = a / 4 % 1024 ∧
      s.access (.read a 4) = (s, .data (BitVec.ofNat 32 (s.slot k i))) ∧
      (s.err = false → v.toNat < 33550337 →
        ∃ t, s.access (.write a 4 v) = (t, .ok) ∧ t.slot k i = v.toNat ∧
          (∀ k' i', k' ≠ k ∨ i' ≠ i → t.slot k' i' = s.slot k' i') ∧ t = { s with ring := t.ring })

/-- R58: a ring-window write to an idle unit without error is answered `ok`; a value v < q goes into the slot, and a value
v >= q raises COEFF_RANGE: ERR is 1 and ERRCODE is 3, and nothing else changes, neither the slot nor DONE. -/
def Obligations.RingWindowWriteChecksTheRange : Prop :=
  ∀ (s : State) (k : RegId) (i : Nat) (v : Word), i < 1024 → s.busy = false → s.err = false →
    (v.toNat < 33550337 →
      ∃ t, s.access (.write (0x10000 + 0x1000 * k + 4 * i) 4 v) = (t, .ok) ∧ t.slot k i = v.toNat ∧ t.err = false) ∧
    (33550337 ≤ v.toNat →
      s.access (.write (0x10000 + 0x1000 * k + 4 * i) 4 v) = ({ s with err := true, errcode := 3 }, .ok))

/-- R26, R60: word j of KEY, at address 0x00040 + 4*j, is bits 32j+31 down to 32j: a unit that is not busy reads them, and
an idle unit without error takes any 32-bit value into them and changes no other bit and no other register. -/
def Obligations.KeyWordWriteAndRead : Prop :=
  ∀ (s : State) (j : Nat) (v : Word), j < 8 → s.busy = false →
    (∃ w, s.access (.read (0x00040 + 4 * j) 4) = (s, .data w) ∧ ∀ b < 32, w.getLsbD b = s.key.getLsbD (32 * j + b)) ∧
    (s.err = false →
      ∃ t, s.access (.write (0x00040 + 4 * j) 4 v) = (t, .ok) ∧
        (∀ b < 256, t.key.getLsbD b = if b / 32 = j then v.getLsbD (b % 32) else s.key.getLsbD b) ∧
        t = { s with key := t.key })

/-- R27, R60: the same of DIGEST and its 16 words at address 0x00080 + 4*j. -/
def Obligations.DigestWordWriteAndRead : Prop :=
  ∀ (s : State) (j : Nat) (v : Word), j < 16 → s.busy = false →
    (∃ w, s.access (.read (0x00080 + 4 * j) 4) = (s, .data w) ∧ ∀ b < 32, w.getLsbD b = s.digest.getLsbD (32 * j + b)) ∧
    (s.err = false →
      ∃ t, s.access (.write (0x00080 + 4 * j) 4 v) = (t, .ok) ∧
        (∀ b < 512, t.digest.getLsbD b = if b / 32 = j then v.getLsbD (b % 32) else s.digest.getLsbD b) ∧
        t = { s with digest := t.digest })

/-- R27: DIGEST is the sum of its words DIGEST[j] * 2^(32j), as the port reads them. -/
def Obligations.DigestIsTheSumOfItsWords : Prop :=
  ∀ s : State, s.busy = false → ∃ w : Nat → Word,
    (∀ j < 16, s.access (.read (0x00080 + 4 * j) 4) = (s, .data (w j))) ∧
    s.digest.toNat = ∑ j ∈ Finset.range 16, (w j).toNat * 2 ^ (32 * j)

/-- R217: while a command is pending, every access to KEY, DIGEST and the ring window, and every write of CMD, is refused
and changes nothing. -/
def Obligations.BusyUnitRefusesDataAndCommands : Prop :=
  ∀ (s : State) (n : Nat) (v : Word), s.busy = true →
    (∀ a, (0x00040 ≤ a ∧ a < 0x00060) ∨ (0x00080 ≤ a ∧ a < 0x000C0) ∨ (0x10000 ≤ a ∧ a ≤ 0x1FFFF) →
      s.access (.read a n) = (s, .buserr) ∧ s.access (.write a n v) = (s, .buserr)) ∧
    s.access (.write 0x00000 n v) = (s, .buserr)

/-- R56, R33: in the error state every write of KEY, DIGEST, the ring window and CMD is refused and changes nothing. -/
def Obligations.ErrorStateRefusesDataWritesAndCommands : Prop :=
  ∀ (s : State) (n : Nat) (v : Word), s.err = true →
    (∀ a, (0x00040 ≤ a ∧ a < 0x00060) ∨ (0x00080 ≤ a ∧ a < 0x000C0) ∨ (0x10000 ≤ a ∧ a ≤ 0x1FFFF) →
      s.access (.write a n v) = (s, .buserr)) ∧
    s.access (.write 0x00000 n v) = (s, .buserr)

/-- R200: the transactions answered `buserr` are exactly those of the list: wrong size or misaligned address; unmapped
address; write to ID or PARAM_*; write to CMD while BUSY = 1 or ERR = 1; any access to data state while BUSY = 1; write to
data state while ERR = 1. Such a transaction changes nothing. -/
def Obligations.RefusedTransactionsAreThoseListed : Prop :=
  ∀ (s : State) (t : PortReq),
    ((s.access t).2 = .buserr ↔
      (t.size ≠ 4 ∨ t.addr % 4 ≠ 0) ∨
      ((0x00028 ≤ t.addr ∧ t.addr < 0x00040) ∨ (0x00060 ≤ t.addr ∧ t.addr < 0x00080) ∨
        (0x000C0 ≤ t.addr ∧ t.addr < 0x10000) ∨ 0x1FFFF < t.addr) ∨
      (t.isWrite = true ∧ (t.addr = 0x00004 ∨ (0x00010 ≤ t.addr ∧ t.addr < 0x00028))) ∨
      (t.isWrite = true ∧ t.addr = 0x00000 ∧ (s.busy = true ∨ s.err = true)) ∨
      (((0x00040 ≤ t.addr ∧ t.addr < 0x00060) ∨ (0x00080 ≤ t.addr ∧ t.addr < 0x000C0) ∨
        (0x10000 ≤ t.addr ∧ t.addr ≤ 0x1FFFF)) ∧ (s.busy = true ∨ (t.isWrite = true ∧ s.err = true)))) ∧
    ((s.access t).2 = .buserr → (s.access t).1 = s)

/-- "A read never changes any state" (20_memory.md, the read primitive): a read changes no state, and its response is
`buserr` or data. -/
def Obligations.ReadsHaveNoSideEffect : Prop :=
  ∀ (s : State) (a n : Nat), (s.access (.read a n)).1 = s ∧ (s.access (.read a n)).2 ≠ .ok

/-- R50, R66: a turn of the host performs its transaction on the state it finds and gives the response back, in one step;
the list of turns and of responses is the model's, log entries 1 and 5. -/
def Obligations.HostTurnPerformsOneTransaction : Prop :=
  ∀ (s : State) (t : PortReq) (ts : List Turn), s.env.turns = .port t :: ts →
    ∃ u, step s = .next u ∧
      (∃ e, u = { (s.access t).1 with env := e } ∧ e.turns = ts ∧ e.responses = (s.access t).2 :: s.env.responses ∧
        e.draws = s.env.draws ∧ e.entropyReady = s.env.entropyReady)
end

