-- ==== Sys2Proof/Laws/State.lean ====
section
/-! SUPPORT. One lemma per field per update of the state, so that no later proof unfolds a record
update. -/

namespace Sys2Proof.Machine

/-! ### `State.setRing` -/

@[simp] theorem State.setRing_ring (s : State) (k : RegId) (v : RingElem pSetla) :
    (s.setRing k v).ring = s.ring.set k (vmap (BitVec.ofNat 25) v) := rfl
@[simp] theorem State.setRing_key (s : State) (k : RegId) (v : RingElem pSetla) :
    (s.setRing k v).key = s.key := rfl
@[simp] theorem State.setRing_digest (s : State) (k : RegId) (v : RingElem pSetla) :
    (s.setRing k v).digest = s.digest := rfl
@[simp] theorem State.setRing_cmd (s : State) (k : RegId) (v : RingElem pSetla) :
    (s.setRing k v).cmd = s.cmd := rfl
@[simp] theorem State.setRing_busy (s : State) (k : RegId) (v : RingElem pSetla) :
    (s.setRing k v).busy = s.busy := rfl
@[simp] theorem State.setRing_done (s : State) (k : RegId) (v : RingElem pSetla) :
    (s.setRing k v).done = s.done := rfl
@[simp] theorem State.setRing_err (s : State) (k : RegId) (v : RingElem pSetla) :
    (s.setRing k v).err = s.err := rfl
@[simp] theorem State.setRing_errcode (s : State) (k : RegId) (v : RingElem pSetla) :
    (s.setRing k v).errcode = s.errcode := rfl
@[simp] theorem State.setRing_ieDone (s : State) (k : RegId) (v : RingElem pSetla) :
    (s.setRing k v).ieDone = s.ieDone := rfl
@[simp] theorem State.setRing_ieErr (s : State) (k : RegId) (v : RingElem pSetla) :
    (s.setRing k v).ieErr = s.ieErr := rfl
@[simp] theorem State.setRing_env (s : State) (k : RegId) (v : RingElem pSetla) :
    (s.setRing k v).env = s.env := rfl

/-! ### `State.setSlot` -/

@[simp] theorem State.setSlot_ring (s : State) (k : RegId) (i : Fin 1024) (v : Slot) :
    (s.setSlot k i v).ring = s.ring.set k (s.ring[k].set i v) := rfl
@[simp] theorem State.setSlot_key (s : State) (k : RegId) (i : Fin 1024) (v : Slot) :
    (s.setSlot k i v).key = s.key := rfl
@[simp] theorem State.setSlot_digest (s : State) (k : RegId) (i : Fin 1024) (v : Slot) :
    (s.setSlot k i v).digest = s.digest := rfl
@[simp] theorem State.setSlot_cmd (s : State) (k : RegId) (i : Fin 1024) (v : Slot) :
    (s.setSlot k i v).cmd = s.cmd := rfl
@[simp] theorem State.setSlot_busy (s : State) (k : RegId) (i : Fin 1024) (v : Slot) :
    (s.setSlot k i v).busy = s.busy := rfl
@[simp] theorem State.setSlot_done (s : State) (k : RegId) (i : Fin 1024) (v : Slot) :
    (s.setSlot k i v).done = s.done := rfl
@[simp] theorem State.setSlot_err (s : State) (k : RegId) (i : Fin 1024) (v : Slot) :
    (s.setSlot k i v).err = s.err := rfl
@[simp] theorem State.setSlot_errcode (s : State) (k : RegId) (i : Fin 1024) (v : Slot) :
    (s.setSlot k i v).errcode = s.errcode := rfl
@[simp] theorem State.setSlot_ieDone (s : State) (k : RegId) (i : Fin 1024) (v : Slot) :
    (s.setSlot k i v).ieDone = s.ieDone := rfl
@[simp] theorem State.setSlot_ieErr (s : State) (k : RegId) (i : Fin 1024) (v : Slot) :
    (s.setSlot k i v).ieErr = s.ieErr := rfl
@[simp] theorem State.setSlot_env (s : State) (k : RegId) (i : Fin 1024) (v : Slot) :
    (s.setSlot k i v).env = s.env := rfl

/-! ### `State.setKey` -/

@[simp] theorem State.setKey_ring (s : State) (v : Nat) :
    (s.setKey v).ring = s.ring := rfl
@[simp] theorem State.setKey_key (s : State) (v : Nat) :
    (s.setKey v).key = BitVec.ofNat 256 v := rfl
@[simp] theorem State.setKey_digest (s : State) (v : Nat) :
    (s.setKey v).digest = s.digest := rfl
@[simp] theorem State.setKey_cmd (s : State) (v : Nat) :
    (s.setKey v).cmd = s.cmd := rfl
@[simp] theorem State.setKey_busy (s : State) (v : Nat) :
    (s.setKey v).busy = s.busy := rfl
@[simp] theorem State.setKey_done (s : State) (v : Nat) :
    (s.setKey v).done = s.done := rfl
@[simp] theorem State.setKey_err (s : State) (v : Nat) :
    (s.setKey v).err = s.err := rfl
@[simp] theorem State.setKey_errcode (s : State) (v : Nat) :
    (s.setKey v).errcode = s.errcode := rfl
@[simp] theorem State.setKey_ieDone (s : State) (v : Nat) :
    (s.setKey v).ieDone = s.ieDone := rfl
@[simp] theorem State.setKey_ieErr (s : State) (v : Nat) :
    (s.setKey v).ieErr = s.ieErr := rfl
@[simp] theorem State.setKey_env (s : State) (v : Nat) :
    (s.setKey v).env = s.env := rfl
@[simp] theorem State.setKey_slot (s : State) (v : Nat) (k : RegId) (i : Nat) :
    (s.setKey v).slot k i = s.slot k i := rfl

/-! ### `State.setKeyWord` -/

@[simp] theorem State.setKeyWord_ring (s : State) (j : Fin 8) (v : Word) :
    (s.setKeyWord j v).ring = s.ring := rfl
@[simp] theorem State.setKeyWord_key (s : State) (j : Fin 8) (v : Word) :
    (s.setKeyWord j v).key = putWord s.key j v := rfl
@[simp] theorem State.setKeyWord_digest (s : State) (j : Fin 8) (v : Word) :
    (s.setKeyWord j v).digest = s.digest := rfl
@[simp] theorem State.setKeyWord_cmd (s : State) (j : Fin 8) (v : Word) :
    (s.setKeyWord j v).cmd = s.cmd := rfl
@[simp] theorem State.setKeyWord_busy (s : State) (j : Fin 8) (v : Word) :
    (s.setKeyWord j v).busy = s.busy := rfl
@[simp] theorem State.setKeyWord_done (s : State) (j : Fin 8) (v : Word) :
    (s.setKeyWord j v).done = s.done := rfl
@[simp] theorem State.setKeyWord_err (s : State) (j : Fin 8) (v : Word) :
    (s.setKeyWord j v).err = s.err := rfl
@[simp] theorem State.setKeyWord_errcode (s : State) (j : Fin 8) (v : Word) :
    (s.setKeyWord j v).errcode = s.errcode := rfl
@[simp] theorem State.setKeyWord_ieDone (s : State) (j : Fin 8) (v : Word) :
    (s.setKeyWord j v).ieDone = s.ieDone := rfl
@[simp] theorem State.setKeyWord_ieErr (s : State) (j : Fin 8) (v : Word) :
    (s.setKeyWord j v).ieErr = s.ieErr := rfl
@[simp] theorem State.setKeyWord_env (s : State) (j : Fin 8) (v : Word) :
    (s.setKeyWord j v).env = s.env := rfl
@[simp] theorem State.setKeyWord_slot (s : State) (j : Fin 8) (v : Word) (k : RegId) (i : Nat) :
    (s.setKeyWord j v).slot k i = s.slot k i := rfl

/-! ### `State.setDigestWord` -/

@[simp] theorem State.setDigestWord_ring (s : State) (j : Fin 16) (v : Word) :
    (s.setDigestWord j v).ring = s.ring := rfl
@[simp] theorem State.setDigestWord_key (s : State) (j : Fin 16) (v : Word) :
    (s.setDigestWord j v).key = s.key := rfl
@[simp] theorem State.setDigestWord_digest (s : State) (j : Fin 16) (v : Word) :
    (s.setDigestWord j v).digest = putWord s.digest j v := rfl
@[simp] theorem State.setDigestWord_cmd (s : State) (j : Fin 16) (v : Word) :
    (s.setDigestWord j v).cmd = s.cmd := rfl
@[simp] theorem State.setDigestWord_busy (s : State) (j : Fin 16) (v : Word) :
    (s.setDigestWord j v).busy = s.busy := rfl
@[simp] theorem State.setDigestWord_done (s : State) (j : Fin 16) (v : Word) :
    (s.setDigestWord j v).done = s.done := rfl
@[simp] theorem State.setDigestWord_err (s : State) (j : Fin 16) (v : Word) :
    (s.setDigestWord j v).err = s.err := rfl
@[simp] theorem State.setDigestWord_errcode (s : State) (j : Fin 16) (v : Word) :
    (s.setDigestWord j v).errcode = s.errcode := rfl
@[simp] theorem State.setDigestWord_ieDone (s : State) (j : Fin 16) (v : Word) :
    (s.setDigestWord j v).ieDone = s.ieDone := rfl
@[simp] theorem State.setDigestWord_ieErr (s : State) (j : Fin 16) (v : Word) :
    (s.setDigestWord j v).ieErr = s.ieErr := rfl
@[simp] theorem State.setDigestWord_env (s : State) (j : Fin 16) (v : Word) :
    (s.setDigestWord j v).env = s.env := rfl
@[simp] theorem State.setDigestWord_slot (s : State) (j : Fin 16) (v : Word) (k : RegId) (i : Nat) :
    (s.setDigestWord j v).slot k i = s.slot k i := rfl

/-! ### `State.issue` -/

@[simp] theorem State.issue_ring (s : State) (w : Word) :
    (s.issue w).ring = s.ring := rfl
@[simp] theorem State.issue_key (s : State) (w : Word) :
    (s.issue w).key = s.key := rfl
@[simp] theorem State.issue_digest (s : State) (w : Word) :
    (s.issue w).digest = s.digest := rfl
@[simp] theorem State.issue_cmd (s : State) (w : Word) :
    (s.issue w).cmd = w := rfl
@[simp] theorem State.issue_busy (s : State) (w : Word) :
    (s.issue w).busy = true := rfl
@[simp] theorem State.issue_done (s : State) (w : Word) :
    (s.issue w).done = false := rfl
@[simp] theorem State.issue_err (s : State) (w : Word) :
    (s.issue w).err = s.err := rfl
@[simp] theorem State.issue_errcode (s : State) (w : Word) :
    (s.issue w).errcode = s.errcode := rfl
@[simp] theorem State.issue_ieDone (s : State) (w : Word) :
    (s.issue w).ieDone = s.ieDone := rfl
@[simp] theorem State.issue_ieErr (s : State) (w : Word) :
    (s.issue w).ieErr = s.ieErr := rfl
@[simp] theorem State.issue_env (s : State) (w : Word) :
    (s.issue w).env = s.env := rfl
@[simp] theorem State.issue_slot (s : State) (w : Word) (k : RegId) (i : Nat) :
    (s.issue w).slot k i = s.slot k i := rfl

/-! ### `State.complete` -/

@[simp] theorem State.complete_ring (s : State) :
    s.complete.ring = s.ring := rfl
@[simp] theorem State.complete_key (s : State) :
    s.complete.key = s.key := rfl
@[simp] theorem State.complete_digest (s : State) :
    s.complete.digest = s.digest := rfl
@[simp] theorem State.complete_cmd (s : State) :
    s.complete.cmd = s.cmd := rfl
@[simp] theorem State.complete_busy (s : State) :
    s.complete.busy = false := rfl
@[simp] theorem State.complete_done (s : State) :
    s.complete.done = true := rfl
@[simp] theorem State.complete_err (s : State) :
    s.complete.err = s.err := rfl
@[simp] theorem State.complete_errcode (s : State) :
    s.complete.errcode = s.errcode := rfl
@[simp] theorem State.complete_ieDone (s : State) :
    s.complete.ieDone = s.ieDone := rfl
@[simp] theorem State.complete_ieErr (s : State) :
    s.complete.ieErr = s.ieErr := rfl
@[simp] theorem State.complete_env (s : State) :
    s.complete.env = s.env := rfl
@[simp] theorem State.complete_slot (s : State) (k : RegId) (i : Nat) :
    s.complete.slot k i = s.slot k i := rfl

/-! ### `State.clearDone` -/

@[simp] theorem State.clearDone_ring (s : State) :
    s.clearDone.ring = s.ring := rfl
@[simp] theorem State.clearDone_key (s : State) :
    s.clearDone.key = s.key := rfl
@[simp] theorem State.clearDone_digest (s : State) :
    s.clearDone.digest = s.digest := rfl
@[simp] theorem State.clearDone_cmd (s : State) :
    s.clearDone.cmd = s.cmd := rfl
@[simp] theorem State.clearDone_busy (s : State) :
    s.clearDone.busy = s.busy := rfl
@[simp] theorem State.clearDone_done (s : State) :
    s.clearDone.done = false := rfl
@[simp] theorem State.clearDone_err (s : State) :
    s.clearDone.err = s.err := rfl
@[simp] theorem State.clearDone_errcode (s : State) :
    s.clearDone.errcode = s.errcode := rfl
@[simp] theorem State.clearDone_ieDone (s : State) :
    s.clearDone.ieDone = s.ieDone := rfl
@[simp] theorem State.clearDone_ieErr (s : State) :
    s.clearDone.ieErr = s.ieErr := rfl
@[simp] theorem State.clearDone_env (s : State) :
    s.clearDone.env = s.env := rfl
@[simp] theorem State.clearDone_slot (s : State) (k : RegId) (i : Nat) :
    s.clearDone.slot k i = s.slot k i := rfl

/-! ### `State.setCtrl` -/

@[simp] theorem State.setCtrl_ring (s : State) (v : Word) :
    (s.setCtrl v).ring = s.ring := rfl
@[simp] theorem State.setCtrl_key (s : State) (v : Word) :
    (s.setCtrl v).key = s.key := rfl
@[simp] theorem State.setCtrl_digest (s : State) (v : Word) :
    (s.setCtrl v).digest = s.digest := rfl
@[simp] theorem State.setCtrl_cmd (s : State) (v : Word) :
    (s.setCtrl v).cmd = s.cmd := rfl
@[simp] theorem State.setCtrl_busy (s : State) (v : Word) :
    (s.setCtrl v).busy = s.busy := rfl
@[simp] theorem State.setCtrl_done (s : State) (v : Word) :
    (s.setCtrl v).done = s.done := rfl
@[simp] theorem State.setCtrl_err (s : State) (v : Word) :
    (s.setCtrl v).err = s.err := rfl
@[simp] theorem State.setCtrl_errcode (s : State) (v : Word) :
    (s.setCtrl v).errcode = s.errcode := rfl
@[simp] theorem State.setCtrl_ieDone (s : State) (v : Word) :
    (s.setCtrl v).ieDone = v.getLsbD 0 := rfl
@[simp] theorem State.setCtrl_ieErr (s : State) (v : Word) :
    (s.setCtrl v).ieErr = v.getLsbD 1 := rfl
@[simp] theorem State.setCtrl_env (s : State) (v : Word) :
    (s.setCtrl v).env = s.env := rfl
@[simp] theorem State.setCtrl_slot (s : State) (v : Word) (k : RegId) (i : Nat) :
    (s.setCtrl v).slot k i = s.slot k i := rfl

/-! ### `State.raiseFault` -/

@[simp] theorem State.raiseFault_ring (s : State) (f : Fault) :
    (s.raiseFault f).ring = s.ring := rfl
@[simp] theorem State.raiseFault_key (s : State) (f : Fault) :
    (s.raiseFault f).key = s.key := rfl
@[simp] theorem State.raiseFault_digest (s : State) (f : Fault) :
    (s.raiseFault f).digest = s.digest := rfl
@[simp] theorem State.raiseFault_cmd (s : State) (f : Fault) :
    (s.raiseFault f).cmd = s.cmd := rfl
@[simp] theorem State.raiseFault_busy (s : State) (f : Fault) :
    (s.raiseFault f).busy = false := rfl
@[simp] theorem State.raiseFault_done (s : State) (f : Fault) :
    (s.raiseFault f).done = s.done := rfl
@[simp] theorem State.raiseFault_err (s : State) (f : Fault) :
    (s.raiseFault f).err = true := rfl
@[simp] theorem State.raiseFault_errcode (s : State) (f : Fault) :
    (s.raiseFault f).errcode = f.code := rfl
@[simp] theorem State.raiseFault_ieDone (s : State) (f : Fault) :
    (s.raiseFault f).ieDone = s.ieDone := rfl
@[simp] theorem State.raiseFault_ieErr (s : State) (f : Fault) :
    (s.raiseFault f).ieErr = s.ieErr := rfl
@[simp] theorem State.raiseFault_env (s : State) (f : Fault) :
    (s.raiseFault f).env = s.env := rfl
@[simp] theorem State.raiseFault_slot (s : State) (f : Fault) (k : RegId) (i : Nat) :
    (s.raiseFault f).slot k i = s.slot k i := rfl

/-! ### `State.useDraws` -/

@[simp] theorem State.useDraws_ring (s : State) (n : Nat) :
    (s.useDraws n).ring = s.ring := rfl
@[simp] theorem State.useDraws_key (s : State) (n : Nat) :
    (s.useDraws n).key = s.key := rfl
@[simp] theorem State.useDraws_digest (s : State) (n : Nat) :
    (s.useDraws n).digest = s.digest := rfl
@[simp] theorem State.useDraws_cmd (s : State) (n : Nat) :
    (s.useDraws n).cmd = s.cmd := rfl
@[simp] theorem State.useDraws_busy (s : State) (n : Nat) :
    (s.useDraws n).busy = s.busy := rfl
@[simp] theorem State.useDraws_done (s : State) (n : Nat) :
    (s.useDraws n).done = s.done := rfl
@[simp] theorem State.useDraws_err (s : State) (n : Nat) :
    (s.useDraws n).err = s.err := rfl
@[simp] theorem State.useDraws_errcode (s : State) (n : Nat) :
    (s.useDraws n).errcode = s.errcode := rfl
@[simp] theorem State.useDraws_ieDone (s : State) (n : Nat) :
    (s.useDraws n).ieDone = s.ieDone := rfl
@[simp] theorem State.useDraws_ieErr (s : State) (n : Nat) :
    (s.useDraws n).ieErr = s.ieErr := rfl
@[simp] theorem State.useDraws_env (s : State) (n : Nat) :
    (s.useDraws n).env = { s.env with draws := s.env.draws + n } := rfl
@[simp] theorem State.useDraws_slot (s : State) (n : Nat) (k : RegId) (i : Nat) :
    (s.useDraws n).slot k i = s.slot k i := rfl

/-! ### `State.setTurns` -/

@[simp] theorem State.setTurns_ring (s : State) (ts : List Turn) :
    (s.setTurns ts).ring = s.ring := rfl
@[simp] theorem State.setTurns_key (s : State) (ts : List Turn) :
    (s.setTurns ts).key = s.key := rfl
@[simp] theorem State.setTurns_digest (s : State) (ts : List Turn) :
    (s.setTurns ts).digest = s.digest := rfl
@[simp] theorem State.setTurns_cmd (s : State) (ts : List Turn) :
    (s.setTurns ts).cmd = s.cmd := rfl
@[simp] theorem State.setTurns_busy (s : State) (ts : List Turn) :
    (s.setTurns ts).busy = s.busy := rfl
@[simp] theorem State.setTurns_done (s : State) (ts : List Turn) :
    (s.setTurns ts).done = s.done := rfl
@[simp] theorem State.setTurns_err (s : State) (ts : List Turn) :
    (s.setTurns ts).err = s.err := rfl
@[simp] theorem State.setTurns_errcode (s : State) (ts : List Turn) :
    (s.setTurns ts).errcode = s.errcode := rfl
@[simp] theorem State.setTurns_ieDone (s : State) (ts : List Turn) :
    (s.setTurns ts).ieDone = s.ieDone := rfl
@[simp] theorem State.setTurns_ieErr (s : State) (ts : List Turn) :
    (s.setTurns ts).ieErr = s.ieErr := rfl
@[simp] theorem State.setTurns_env (s : State) (ts : List Turn) :
    (s.setTurns ts).env = { s.env with turns := ts } := rfl
@[simp] theorem State.setTurns_slot (s : State) (ts : List Turn) (k : RegId) (i : Nat) :
    (s.setTurns ts).slot k i = s.slot k i := rfl

/-! ### `State.setEntropyReady` -/

@[simp] theorem State.setEntropyReady_ring (s : State) (b : Bool) :
    (s.setEntropyReady b).ring = s.ring := rfl
@[simp] theorem State.setEntropyReady_key (s : State) (b : Bool) :
    (s.setEntropyReady b).key = s.key := rfl
@[simp] theorem State.setEntropyReady_digest (s : State) (b : Bool) :
    (s.setEntropyReady b).digest = s.digest := rfl
@[simp] theorem State.setEntropyReady_cmd (s : State) (b : Bool) :
    (s.setEntropyReady b).cmd = s.cmd := rfl
@[simp] theorem State.setEntropyReady_busy (s : State) (b : Bool) :
    (s.setEntropyReady b).busy = s.busy := rfl
@[simp] theorem State.setEntropyReady_done (s : State) (b : Bool) :
    (s.setEntropyReady b).done = s.done := rfl
@[simp] theorem State.setEntropyReady_err (s : State) (b : Bool) :
    (s.setEntropyReady b).err = s.err := rfl
@[simp] theorem State.setEntropyReady_errcode (s : State) (b : Bool) :
    (s.setEntropyReady b).errcode = s.errcode := rfl
@[simp] theorem State.setEntropyReady_ieDone (s : State) (b : Bool) :
    (s.setEntropyReady b).ieDone = s.ieDone := rfl
@[simp] theorem State.setEntropyReady_ieErr (s : State) (b : Bool) :
    (s.setEntropyReady b).ieErr = s.ieErr := rfl
@[simp] theorem State.setEntropyReady_env (s : State) (b : Bool) :
    (s.setEntropyReady b).env = { s.env with entropyReady := b } := rfl
@[simp] theorem State.setEntropyReady_slot (s : State) (b : Bool) (k : RegId) (i : Nat) :
    (s.setEntropyReady b).slot k i = s.slot k i := rfl

/-! ### `State.respond` -/

@[simp] theorem State.respond_ring (s : State) (r : Response) :
    (s.respond r).ring = s.ring := rfl
@[simp] theorem State.respond_key (s : State) (r : Response) :
    (s.respond r).key = s.key := rfl
@[simp] theorem State.respond_digest (s : State) (r : Response) :
    (s.respond r).digest = s.digest := rfl
@[simp] theorem State.respond_cmd (s : State) (r : Response) :
    (s.respond r).cmd = s.cmd := rfl
@[simp] theorem State.respond_busy (s : State) (r : Response) :
    (s.respond r).busy = s.busy := rfl
@[simp] theorem State.respond_done (s : State) (r : Response) :
    (s.respond r).done = s.done := rfl
@[simp] theorem State.respond_err (s : State) (r : Response) :
    (s.respond r).err = s.err := rfl
@[simp] theorem State.respond_errcode (s : State) (r : Response) :
    (s.respond r).errcode = s.errcode := rfl
@[simp] theorem State.respond_ieDone (s : State) (r : Response) :
    (s.respond r).ieDone = s.ieDone := rfl
@[simp] theorem State.respond_ieErr (s : State) (r : Response) :
    (s.respond r).ieErr = s.ieErr := rfl
@[simp] theorem State.respond_env (s : State) (r : Response) :
    (s.respond r).env = { s.env with responses := r :: s.env.responses } := rfl
@[simp] theorem State.respond_slot (s : State) (r : Response) (k : RegId) (i : Nat) :
    (s.respond r).slot k i = s.slot k i := rfl

/-! ### `State.resetBlock` -/

@[simp] theorem State.resetBlock_ring (s : State) : s.resetBlock.ring = State.reset.ring := rfl
@[simp] theorem State.resetBlock_key (s : State) : s.resetBlock.key = State.reset.key := rfl
@[simp] theorem State.resetBlock_digest (s : State) : s.resetBlock.digest = State.reset.digest := rfl
@[simp] theorem State.resetBlock_cmd (s : State) : s.resetBlock.cmd = State.reset.cmd := rfl
@[simp] theorem State.resetBlock_busy (s : State) : s.resetBlock.busy = State.reset.busy := rfl
@[simp] theorem State.resetBlock_done (s : State) : s.resetBlock.done = State.reset.done := rfl
@[simp] theorem State.resetBlock_err (s : State) : s.resetBlock.err = State.reset.err := rfl
@[simp] theorem State.resetBlock_errcode (s : State) : s.resetBlock.errcode = State.reset.errcode := rfl
@[simp] theorem State.resetBlock_ieDone (s : State) : s.resetBlock.ieDone = State.reset.ieDone := rfl
@[simp] theorem State.resetBlock_ieErr (s : State) : s.resetBlock.ieErr = State.reset.ieErr := rfl
@[simp] theorem State.resetBlock_env (s : State) : s.resetBlock.env = s.env := rfl

@[simp] theorem State.resetBlock_slot (s : State) (k : RegId) (i : Nat) :
    s.resetBlock.slot k i = State.reset.slot k i := rfl

/-! ### `State.reset` -/

@[simp] theorem State.reset_key : State.reset.key = 0 := rfl
@[simp] theorem State.reset_digest : State.reset.digest = 0 := rfl
@[simp] theorem State.reset_cmd : State.reset.cmd = 0 := rfl
@[simp] theorem State.reset_busy : State.reset.busy = false := rfl
@[simp] theorem State.reset_done : State.reset.done = false := rfl
@[simp] theorem State.reset_err : State.reset.err = false := rfl
@[simp] theorem State.reset_errcode : State.reset.errcode = 0 := rfl
@[simp] theorem State.reset_ieDone : State.reset.ieDone = false := rfl
@[simp] theorem State.reset_ieErr : State.reset.ieErr = false := rfl

end Sys2Proof.Machine
end

