-- ==== Sys2Proof/Laws/Lanes.lean ====
section
/-! SUPPORT. The lanes of ring elements and the slots of ring registers: what each helper of
`Machine/Operands.lean` and each write of a ring register can do, said once. -/

namespace Sys2Proof.Machine

theorem lane_eq_getElem {n : Nat} (a : Vector Nat n) {i : Nat} (h : i < n) : lane a i = a[i] := by
  simp [lane, h]

theorem lane_of_le {n : Nat} (a : Vector Nat n) {i : Nat} (h : n ≤ i) : lane a i = 0 := by
  simp [lane, h]

theorem lane_vtab {n : Nat} (f : Nat → Nat) {i : Nat} (h : i < n) : lane (vtab n f) i = f i := by
  simp [lane, vtab, h]

theorem lane_vmap {n : Nat} (f : Nat → Nat) (a : Vector Nat n) {i : Nat} (h : i < n) :
    lane (vmap f a) i = f (lane a i) := by
  simp [lane, vmap, h]

theorem lane_vzip {n : Nat} (f : Nat → Nat → Nat) (a b : Vector Nat n) {i : Nat} (h : i < n) :
    lane (vzip f a b) i = f (lane a i) (lane b i) := by
  simp [lane, vzip, h]

/-- Two ring elements are equal when all their lanes are. -/
theorem eq_of_lanes {n : Nat} {a b : Vector Nat n} (h : ∀ i < n, lane a i = lane b i) : a = b := by
  ext i hi
  rw [← lane_eq_getElem a hi, ← lane_eq_getElem b hi]
  exact h i hi

theorem slot_of_le (s : State) (k : RegId) {i : Nat} (h : 1024 ≤ i) : s.slot k i = 0 :=
  lane_of_le _ h

/-- A slot is the value of its 25 bits (R21). -/
theorem slot_eq_toNat (s : State) (k : RegId) {i : Nat} (h : i < 1024) :
    s.slot k i = (s.ring[k][i]).toNat := by
  simp [State.slot, State.readRing, lane, vmap, h]

theorem slot_lt_width (s : State) (k : RegId) (i : Nat) : s.slot k i < 2 ^ 25 := by
  rcases Nat.lt_or_ge i 1024 with h | h
  · rw [slot_eq_toNat s k h]; exact (s.ring[k][i]).isLt
  · rw [slot_of_le s k h]; decide

/-- The lanes of a register read whole are its slots (R15). -/
theorem lane_readRing (s : State) (k : RegId) (i : Nat) : lane (s.readRing k) i = s.slot k i := rfl

/-- Writing a ring register whole gives its slots the lanes of the value, in 25 bits (R21, R22 (a)). -/
theorem slot_setRing_self (s : State) (k : RegId) (v : RingElem pSetla) {i : Nat} (h : i < 1024) :
    (s.setRing k v).slot k i = lane v i % 2 ^ 25 := by
  rw [slot_eq_toNat _ _ h]
  simp [lane, vmap, h]

/-- A lane below 2^25 is stored as it is. -/
theorem slot_setRing_of_lt (s : State) (k : RegId) (v : RingElem pSetla) {i : Nat} (h : i < 1024)
    (hv : lane v i < 2 ^ 25) : (s.setRing k v).slot k i = lane v i := by
  rw [slot_setRing_self s k v h, Nat.mod_eq_of_lt hv]

/-- Writing a ring register leaves every other one alone. -/
theorem slot_setRing_ne (s : State) {k j : RegId} (v : RingElem pSetla) (i : Nat) (h : j ≠ k) :
    (s.setRing k v).slot j i = s.slot j i := by
  rcases Nat.lt_or_ge i 1024 with hi | hi
  · rw [slot_eq_toNat _ _ hi, slot_eq_toNat _ _ hi]
    have : (k : Nat) ≠ j := fun e => h (Fin.ext e.symm)
    simp [Vector.getElem_set_ne, this]
  · rw [slot_of_le _ _ hi, slot_of_le _ _ hi]

/-- The host's write of one slot (R22 (b), R58). -/
theorem slot_setSlot_self (s : State) (k : RegId) (i : Fin 1024) (v : Slot) :
    (s.setSlot k i v).slot k i = v.toNat := by
  rw [slot_eq_toNat _ _ i.isLt]
  simp

/-- The host's write of one slot leaves every other slot alone. -/
theorem slot_setSlot_ne (s : State) (k j : RegId) (i : Fin 1024) (m : Nat) (v : Slot)
    (h : j ≠ k ∨ m ≠ i) : (s.setSlot k i v).slot j m = s.slot j m := by
  rcases Nat.lt_or_ge m 1024 with hm | hm
  · rw [slot_eq_toNat _ _ hm, slot_eq_toNat _ _ hm]
    by_cases hk : j = k
    · subst hk
      have : (i : Nat) ≠ m := fun e => (h.resolve_left (by simp)) e.symm
      simp [Vector.getElem_set_ne, this]
    · have : (k : Nat) ≠ j := fun e => hk (Fin.ext e.symm)
      simp [Vector.getElem_set_ne, this]
  · rw [slot_of_le _ _ hm, slot_of_le _ _ hm]

/-- Every slot is 0 after reset (R40). -/
@[simp] theorem slot_reset (k : RegId) (i : Nat) : State.reset.slot k i = 0 := by
  rcases Nat.lt_or_ge i 1024 with h | h
  · rw [slot_eq_toNat _ _ h]
    simp [State.reset]
  · exact slot_of_le _ _ h

/-- A canonical residue is below q (R10). -/
theorem residue_lt (p : Params) (hq : 0 < p.q) (v : Int) : residue p v < p.q := by
  have h1 := Int.emod_nonneg v (b := (p.q : Int)) (by omega)
  have h2 := Int.emod_lt_of_pos v (b := (p.q : Int)) (by omega)
  simp only [residue]
  omega

theorem residue_cast (p : Params) (hq : 0 < p.q) (v : Int) : (residue p v : Int) = v % p.q := by
  have h1 := Int.emod_nonneg v (b := (p.q : Int)) (by omega)
  simp only [residue]
  omega

/-- The answer of the oracle lies in its interval (R16). -/
theorem answerIn_mem (free : Nat) {lo hi : Int} (h : lo ≤ hi) :
    lo ≤ answerIn free lo hi ∧ answerIn free lo hi ≤ hi := by
  have h1 := Int.emod_nonneg (free : Int) (b := hi - lo + 1) (by omega)
  have h2 := Int.emod_lt_of_pos (free : Int) (b := hi - lo + 1) (by omega)
  simp only [answerIn]
  omega

theorem laneDraw_mem (s : State) {lo hi : Int} (h : lo ≤ hi) (i : Nat) :
    lo ≤ s.laneDraw lo hi i ∧ s.laneDraw lo hi i ≤ hi := answerIn_mem _ h

end Sys2Proof.Machine
end

