-- ==== Sys2Proof/Laws/Meanings.lean ====
section
/-! SUPPORT. What the ring functions compute lane by lane, that every lane they compute is a canonical
residue (R100 (f)), and what each shared end of a command, and so `exec`, can answer. -/

namespace Sys2Proof.Machine

/-! ### The lanes of the ring functions -/

theorem lane_ringAdd (p : Params) (a b : RingElem p) {i : Nat} (h : i < p.n) :
    lane (ringAdd p a b) i = (lane a i + lane b i) % p.q := lane_vzip _ a b h

theorem lane_ringSub (p : Params) (a b : RingElem p) {i : Nat} (h : i < p.n) :
    lane (ringSub p a b) i = residue p ((lane a i : Int) - (lane b i : Int)) := lane_vzip _ a b h

theorem lane_ringMul (p : Params) (a b : RingElem p) {k : Nat} (h : k < p.n) :
    lane (ringMul p a b) k = mulLane p a.toList b.toList k := lane_vtab _ h

theorem lane_ringOfDraws (p : Params) (r : Nat → Int) {i : Nat} (h : i < p.n) :
    lane (ringOfDraws p r) i = residue p (r i) := lane_vtab _ h

theorem lane_ringCompress (p : Params) (a : RingElem p) {i : Nat} (h : i < p.n) :
    lane (ringCompress p a) i = compressLane p (lane a i) := lane_vmap _ a h

theorem lane_ringEncode (p : Params) (key : Nat) {i : Nat} (h : i < p.n) :
    lane (ringEncode p key) i = if i < p.klen then (key.testBit i).toNat * p.half else 0 :=
  lane_vtab _ h

/-- A completed expansion, and zero in the unfilled positions (R131). -/
theorem lane_ringChallenge {p : Params} {digest : Nat} {c : RingElem p}
    (h : ringChallenge p digest = some c) :
    ∃ l, expandDigits p p.n digest 0 = some l ∧ ∀ i < p.n, lane c i = l.getD i 0 := by
  simp only [ringChallenge, Option.map_eq_some_iff] at h
  obtain ⟨l, hl, rfl⟩ := h
  exact ⟨l, hl, fun i hi => lane_vtab _ hi⟩

/-- Every coefficient an expansion appends is a canonical residue (R100 (f), R131). -/
theorem expandDigits_lt {p : Params} (hq : 0 < p.q) :
    ∀ {room v w : Nat} {l : List Nat}, expandDigits p room v w = some l → ∀ x ∈ l, x < p.q := by
  intro room
  induction room with
  | zero =>
    intro v w l h
    unfold expandDigits at h
    split at h
    · simp only [Option.some.injEq] at h; subst h; simp
    · split at h <;> cases h
  | succ room ih =>
    intro v w l h
    unfold expandDigits at h
    split at h
    · simp only [Option.some.injEq] at h; subst h; simp
    · split at h
      · cases h
      · simp only [Option.map_eq_some_iff] at h
        obtain ⟨tail, htail, rfl⟩ := h
        intro x hx
        rcases List.mem_cons.mp hx with rfl | hx
        · exact residue_lt p hq _
        · exact ih htail x hx

/-- COMPRESS of a 25-bit value is at most 1024 (R122). -/
theorem compressLane_le {x : Nat} (h : x < 2 ^ 25) : compressLane pSetla x ≤ 1024 := by
  simp only [compressLane, lowBits]
  split <;> omega

/-! ### The shared ends of a command -/

/-- A value below q fits a slot. -/
theorem lt_width_of_lt_q {x : Nat} (h : x < pSetla.q) : x < 2 ^ 25 := Nat.lt_trans h (by decide)

/-- The end of a command that writes a ring register, said once (R67, R100). -/
theorem finishRing_spec (s : State) (rd : RegId) (v : RingElem pSetla)
    (hv : ∀ i < 1024, lane v i < 2 ^ 25) :
    ∃ t, s.finishRing rd v = .next t ∧ s.WroteRing t rd (lane v) ∧ t.env = s.env :=
  ⟨(s.setRing rd v).complete, rfl,
    ⟨fun i hi => (State.complete_slot _ _ _).trans (slot_setRing_of_lt s rd v hi (hv i hi)),
      fun _ hk i => (State.complete_slot _ _ _).trans (slot_setRing_ne s v i hk), rfl⟩, rfl⟩

/-- The end of a sampling command when the oracle answers (R110). -/
theorem finishSample_spec (s : State) (rd : RegId) (v : RingElem pSetla)
    (hv : ∀ i < 1024, lane v i < 2 ^ 25) (hr : s.env.entropyReady = true) :
    ∃ t, s.finishSample rd v = .next t ∧ s.WroteRing t rd (lane v) ∧
      t.env = { s.env with draws := s.env.draws + 1024 } :=
  ⟨(s.setRing rd v).complete.useDraws pSetla.n, by simp [State.finishSample, hr],
    ⟨fun i hi => ((State.useDraws_slot _ _ _ _).trans (State.complete_slot _ _ _)).trans
        (slot_setRing_of_lt s rd v hi (hv i hi)),
      fun _ hk i => ((State.useDraws_slot _ _ _ _).trans (State.complete_slot _ _ _)).trans
        (slot_setRing_ne s v i hk), rfl⟩, rfl⟩

/-- While the oracle is silent a sampling command changes nothing (R114). -/
theorem finishSample_stalled (s : State) (rd : RegId) (v : RingElem pSetla)
    (hr : s.env.entropyReady = false) : s.finishSample rd v = .next s := by
  simp [State.finishSample, hr]

/-! ### What exec can answer -/

/-- The outcomes of a command, said once: it writes its destination register and completes; or it
samples, writes it, uses up the draws and completes; or it samples and waits; or it is DECODE, writes
KEY and completes; or it is CHASH and exhausts (R67, R100, R114, R133). In the writing cases every
lane written is a canonical residue (R100 (f)). -/
inductive ExecCase (i : Instr) (s t : State) : Prop where
  | wrote (rd : RegId) (v : RingElem pSetla) (hd : i.destReg = some rd) (hs : i.samples = false)
      (hv : ∀ j < 1024, lane v j < pSetla.q) (ht : t = (s.setRing rd v).complete)
  | sampled (rd : RegId) (v : RingElem pSetla) (hd : i.destReg = some rd) (hs : i.samples = true)
      (hr : s.env.entropyReady = true) (hv : ∀ j < 1024, lane v j < pSetla.q)
      (ht : t = (s.setRing rd v).complete.useDraws pSetla.n)
  | waits (hs : i.samples = true) (hr : s.env.entropyReady = false) (ht : t = s)
  | wroteKey (rs1 : RegId) (v : Nat) (hi : i = .decode rs1) (ht : t = (s.setKey v).complete)
  | exhausted (rd : RegId) (hi : i = .chash rd) (ht : t = s.raiseFault .chashExhausted)

theorem q_pos : 0 < pSetla.q := by decide

/-- A sampling command's two outcomes. -/
theorem sample_cases {i : Instr} {s t : State} {rd : RegId} {r : Nat → Int}
    (hd : i.destReg = some rd) (hs : i.samples = true)
    (h : s.finishSample rd (ringOfDraws pSetla r) = .next t) : ExecCase i s t := by
  cases hr : s.env.entropyReady with
  | false =>
    rw [finishSample_stalled s rd _ hr] at h
    exact .waits hs hr (Host.Outcome.next.inj h).symm
  | true =>
    simp only [State.finishSample, hr, if_true] at h
    refine .sampled rd _ hd hs hr (fun j hj => ?_) (Host.Outcome.next.inj h).symm
    rw [lane_ringOfDraws pSetla r hj]
    exact residue_lt pSetla q_pos _

/-- A command that writes a ring register has one outcome. -/
theorem ring_cases {i : Instr} {s t : State} {rd : RegId} {v : RingElem pSetla}
    (hd : i.destReg = some rd) (hs : i.samples = false) (hv : ∀ j < 1024, lane v j < pSetla.q)
    (h : s.finishRing rd v = .next t) : ExecCase i s t :=
  .wrote rd v hd hs hv (Host.Outcome.next.inj h).symm

/-- What exec can answer (R67). -/
theorem exec_cases {i : Instr} {s t : State} (h : exec i s = .next t) : ExecCase i s t := by
  cases i with
  | add rd rs1 rs2 =>
    refine ring_cases rfl rfl (fun j hj => ?_) h
    rw [lane_ringAdd _ _ _ hj]
    exact Nat.mod_lt _ q_pos
  | sub rd rs1 rs2 =>
    refine ring_cases rfl rfl (fun j hj => ?_) h
    rw [lane_ringSub _ _ _ hj]
    exact residue_lt _ q_pos _
  | mul rd rs1 rs2 =>
    refine ring_cases rfl rfl (fun j hj => ?_) h
    rw [lane_ringMul _ _ _ hj]
    exact residue_lt _ q_pos _
  | sampleb rd imm => exact sample_cases rfl rfl h
  | sampleu rd => exact sample_cases rfl rfl h
  | compress rd rs1 =>
    refine ring_cases rfl rfl (fun j hj => ?_) h
    rw [lane_ringCompress _ _ hj, lane_readRing]
    exact Nat.lt_of_le_of_lt (compressLane_le (slot_lt_width s rs1 j)) (by decide)
  | chash rd =>
    simp only [exec, execChash] at h
    split at h
    · rename_i c hc
      obtain ⟨l, hl, hlane⟩ := lane_ringChallenge hc
      refine ring_cases rfl rfl (fun j hj => ?_) h
      rw [hlane j hj]
      rcases Nat.lt_or_ge j l.length with hjl | hjl
      · simpa [hjl] using expandDigits_lt q_pos hl _ (List.getElem_mem hjl)
      · simp [hjl]
    · exact .exhausted rd rfl (Host.Outcome.next.inj h).symm
  | encode rd =>
    refine ring_cases rfl rfl (fun j hj => ?_) h
    rw [lane_ringEncode _ _ hj]
    split
    · cases s.key.toNat.testBit j <;> decide
    · exact q_pos
  | decode rs1 => exact .wroteKey rs1 _ rfl (Host.Outcome.next.inj h).symm

/-- exec answers a next state for every command in every state (R100 (e)): no command stops. -/
theorem exec_answers (i : Instr) (s : State) : ∃ t, exec i s = .next t := by
  cases i with
  | add rd rs1 rs2 => exact ⟨_, rfl⟩
  | sub rd rs1 rs2 => exact ⟨_, rfl⟩
  | mul rd rs1 rs2 => exact ⟨_, rfl⟩
  | sampleb rd imm => simp only [exec, execSampleb, State.finishSample]; split <;> exact ⟨_, rfl⟩
  | sampleu rd => simp only [exec, execSampleu, State.finishSample]; split <;> exact ⟨_, rfl⟩
  | compress rd rs1 => exact ⟨_, rfl⟩
  | chash rd => simp only [exec, execChash]; split <;> exact ⟨_, rfl⟩
  | encode rd => exact ⟨_, rfl⟩
  | decode rs1 => exact ⟨_, rfl⟩

end Sys2Proof.Machine
end

