-- ==== Sys2Proof/Laws/Port.lean ====
section
/-! SUPPORT. The address map is a bijection onto the registers of the port, and what a transaction at a
register's address does, said once. -/

namespace Sys2Proof.Machine

/-- The ring window: k is address bits 15:12 and i is bits 11:2 (R57). -/
theorem portReg_window {a : Nat} (h0 : a % 4 = 0) (h1 : 0x10000 ≤ a) (h2 : a ≤ 0x1FFFF) :
    portReg a = some (.slot (Fin.ofNat 16 (a / 2 ^ 12)) (Fin.ofNat 1024 (a / 4))) := by
  unfold portReg
  repeat rw [if_neg (by omega)]
  rw [if_pos (by omega)]

/-- The register at a register's address is that register (R52, R57). -/
theorem portReg_addr (r : PortReg) : portReg r.addr = some r := by
  cases r with
  | cmd => rfl
  | id => rfl
  | status => rfl
  | ctrl => rfl
  | param r => cases r <;> rfl
  | key j => revert j; decide
  | digest j => revert j; decide
  | slot k i =>
    have hk := k.isLt
    have hi := i.isLt
    have ha : (PortReg.slot k i).addr = 0x10000 + 0x1000 * (k : Nat) + 4 * (i : Nat) := rfl
    rw [portReg_window (by omega) (by omega) (by omega), ha]
    congr 2
    · apply Fin.ext; simp only [Fin.ofNat]; omega
    · apply Fin.ext; simp only [Fin.ofNat]; omega

/-- Every register lies at a multiple of 4 in the 17-bit address space (R51, R52). -/
theorem addr_legal (r : PortReg) : r.addr % 4 = 0 ∧ r.addr ≤ 0x1FFFF := by
  cases r with
  | param r => cases r <;> decide
  | key j => have := j.isLt; simp only [PortReg.addr]; omega
  | digest j => have := j.isLt; simp only [PortReg.addr]; omega
  | slot k i => have := k.isLt; have := i.isLt; simp only [PortReg.addr]; omega
  | _ => decide

/-- An address that holds a register is that register's address (R52). -/
theorem addr_of_portReg {a : Nat} {r : PortReg} (h : portReg a = some r) : r.addr = a := by
  by_cases h0 : a % 4 ≠ 0
  · rw [portReg, if_pos h0] at h; cases h
  rw [portReg, if_neg h0] at h
  by_cases h1 : 0x00040 ≤ a ∧ a < 0x00060
  · rw [if_pos h1] at h; cases h; simp only [PortReg.addr, Fin.ofNat]; omega
  rw [if_neg h1] at h
  by_cases h2 : 0x00080 ≤ a ∧ a < 0x000C0
  · rw [if_pos h2] at h; cases h; simp only [PortReg.addr, Fin.ofNat]; omega
  rw [if_neg h2] at h
  by_cases h3 : 0x10000 ≤ a ∧ a ≤ 0x1FFFF
  · rw [if_pos h3] at h; cases h; simp only [PortReg.addr, Fin.ofNat]; omega
  rw [if_neg h3] at h
  unfold controlReg at h
  split at h <;> cases h <;> rfl

/-- The checks on an aligned word access at a register's address are those of R73, steps 3 to 8. -/
theorem judge_of_addr (s : State) (t : PortReq) (r : PortReg) (hn : t.size = 4)
    (ha : t.addr = r.addr) : s.judge t = s.gate t r := by
  have h := addr_legal r
  simp only [State.judge, hn, ha, portReg_addr]
  rw [if_neg (by omega)]

/-- A transaction is refused unless it is an aligned word access at a register's address (R61,
R73). -/
theorem judge_cases (s : State) (t : PortReq) :
    s.judge t = .buserr ∨ ∃ r, t.size = 4 ∧ t.addr = r.addr ∧ s.judge t = s.gate t r := by
  by_cases h1 : t.size ≠ 4 ∨ t.addr % 4 ≠ 0 ∨ 0x1FFFF < t.addr
  · exact .inl (by simp only [State.judge, if_pos h1])
  · cases h2 : portReg t.addr with
    | none => exact .inl (by simp only [State.judge, if_neg h1, h2])
    | some r =>
      refine .inr ⟨r, by omega, (addr_of_portReg h2).symm, ?_⟩
      simp only [State.judge, if_neg h1, h2]

/-- What a transaction can do, said once (R53, R54, R55, R58): it is refused; or it raises
COEFF_RANGE; or it reads a register; or it writes one. -/
inductive AccessCase (s : State) (t : PortReq) (u : State) (resp : Response) : Prop where
  | refused (hu : u = s) (hr : resp = .buserr)
  | range (k : RegId) (i : Fin 1024) (v : Word) (ht : t = .write (PortReg.slot k i).addr 4 v)
      (hv : pSetla.q ≤ v.toNat) (hb : s.busy = false) (he : s.err = false)
      (hu : u = s.raiseFault .coeffRange) (hr : resp = .ok)
  | read (r : PortReg) (ht : t = .read r.addr 4) (hd : r.isData = true → s.busy = false)
      (hu : u = s) (hr : resp = .data (s.readReg r))
  | wrote (r : PortReg) (v : Word) (ht : t = .write r.addr 4 v) (hro : r.readOnly = false)
      (hc : r = .cmd → s.busy = false ∧ s.err = false)
      (hd : r.isData = true → s.busy = false ∧ s.err = false)
      (hq : r.isSlot = true → v.toNat < pSetla.q)
      (hu : u = s.writeReg r v) (hr : resp = .ok)

/-- What the checks of R73, steps 3 to 8, decide. -/
theorem gate_cases (s : State) (t : PortReq) (r : PortReg) :
    s.gate t r = .buserr ∨
    (s.gate t r = .coeffRange ∧ r.isSlot = true ∧ t.isWrite = true ∧ t.outOfRange = true ∧
      s.busy = false ∧ s.err = false) ∨
    (s.gate t r = .perform r ∧ (t.isWrite = true → r.readOnly = false) ∧
      (r = .cmd → t.isWrite = true → s.busy = false ∧ s.err = false) ∧
      (r.isData = true → s.busy = false) ∧
      (r.isData = true → t.isWrite = true → s.err = false) ∧
      (r.isSlot = true → t.isWrite = true → t.outOfRange = false)) := by
  unfold State.gate
  cases r <;> cases t <;> cases hb : s.busy <;> cases he : s.err <;>
    simp [PortReg.readOnly, PortReg.isData, PortReg.isSlot, PortReq.isWrite]

theorem access_cases {s u : State} {t : PortReq} {resp : Response} (h : s.access t = (u, resp)) :
    AccessCase s t u resp := by
  simp only [State.access] at h
  rcases judge_cases s t with hj | ⟨r, hn, ha, hj⟩
  · rw [hj] at h; cases h; exact .refused rfl rfl
  · rw [hj] at h
    rcases gate_cases s t r with hg | ⟨hg, hs, hw, ho, hb, he⟩ | ⟨hg, h1, h2, h3, h4, h5⟩
    · rw [hg] at h; cases h; exact .refused rfl rfl
    · rw [hg] at h; cases h
      cases t with
      | read a n => cases hw
      | write a n v =>
        cases r with
        | slot k i =>
          simp only [PortReq.size, PortReq.addr] at hn ha
          subst hn ha
          exact .range k i v rfl (by simpa [PortReq.outOfRange] using ho) hb he rfl rfl
        | _ => cases hs
    · rw [hg] at h
      cases t with
      | read a n =>
        cases h
        simp only [PortReq.size, PortReq.addr] at hn ha
        subst hn ha
        exact .read r rfl h3 rfl rfl
      | write a n v =>
        cases h
        simp only [PortReq.size, PortReq.addr] at hn ha
        subst hn ha
        exact .wrote r v rfl (h1 rfl) (fun e => h2 e rfl) (fun d => ⟨h3 d, h4 d rfl⟩)
          (fun e => by simpa [PortReq.outOfRange] using h5 e rfl) rfl rfl

/-- A performed read (R53). -/
theorem access_read (s : State) (r : PortReg) (h : r.isData = true → s.busy = false) :
    s.access (.read r.addr 4) = (s, .data (s.readReg r)) := by
  have hj : s.judge (.read r.addr 4) = .perform r := by
    rw [judge_of_addr s _ r rfl rfl]
    cases r <;> simp_all [State.gate, PortReg.readOnly, PortReg.isData, PortReg.isSlot,
      PortReq.isWrite]
  simp only [State.access, hj]

/-- A performed write (R54). -/
theorem access_write (s : State) (r : PortReg) (v : Word) (hro : r.readOnly = false)
    (hc : r = .cmd → s.busy = false ∧ s.err = false)
    (hd : r.isData = true → s.busy = false ∧ s.err = false)
    (hq : r.isSlot = true → v.toNat < pSetla.q) :
    s.access (.write r.addr 4 v) = (s.writeReg r v, .ok) := by
  have hj : s.judge (.write r.addr 4 v) = .perform r := by
    rw [judge_of_addr s _ r rfl rfl]
    cases r <;> simp_all [State.gate, PortReg.readOnly, PortReg.isData, PortReg.isSlot,
      PortReq.isWrite, PortReq.outOfRange]
  simp only [State.access, hj]

end Sys2Proof.Machine
end

