-- ==== Sys2Proof/Machine/HostProgram.lean ====
section
/-! DEFINITION. The host's programs as port transactions (R93): what a host program is, its run
against the block, and KeyGen, Signcrypt and Unsigncrypt carried out with the commands, reads, writes
and resets of `49_host_protocol.md`, in the registers of the spec's programs P1 to P3 (log entry
14). -/

namespace Sys2Proof.Machine

/-- A host program under `P_SETLA`: what it does next may depend on what it has read (R93). -/
inductive HostProg (α : Type) where
  | done (result : α)
  /-- `WR addr, v` -/
  | write (addr : Nat) (v : Word) (next : HostProg α)
  /-- `RD addr` -/
  | read (addr : Nat) (next : Word → HostProg α)
  /-- `WAIT`: STATUS is read until BUSY reads 0; the last value read goes on -/
  | wait (next : Word → HostProg α)

/-- How a run of a host program ends (R225). -/
inductive HostRun (α : Type) where
  /-- the program performed its last transaction and the unit is not busy: the run is over -/
  | finished (result : α) (s : State)
  /-- a transaction was answered `buserr`: whatever comes later, the run did not end well (R55, R225) -/
  | refused (s : State)
  /-- the unit is busy with a sampling command whose oracle does not answer: neither over nor faulted
  (R114) -/
  | stuck (s : State)

/-- A turn of another agent between two moves of the host's program (R50). The one host's transactions
are its program's own moves (R68), so a `port` turn is none. -/
def State.otherTurn (s : State) : Turn → State
  | .unit =>
    match s.unitTurn with
    | .next t => t
    | .fault _ | .refused _ => s
  | .hardReset => s.resetBlock
  | .entropy b => s.setEntropyReady b
  | .port _ => s

/-- The turns of the other agents between two moves, in order. -/
def State.otherTurns (s : State) (ts : List Turn) : State := ts.foldl State.otherTurn s

/-- The point at which the host has nothing to do but wait: a busy unit takes its Execute step, and
the run goes on, unless the unit is stuck. That the step is taken no later than here is weak fairness
(R67, R225). DESIGN CHOICE, log entry 14. -/
def State.settle {α : Type} (s : State) (next : State → HostRun α) : HostRun α :=
  match s.unitTurn with
  | .next t => if t.busy then .stuck t else next t
  | .fault _ | .refused _ => .stuck s

/-- The run of a host program under a schedule: entry j lists the turns the other agents take just
before move j of the program, the end of the program being its last move; past the schedule they take
none. When Execute happens is open (R50, R222, U6), so a run is one of the program's outcomes, and
the outcomes of a program are its runs under every schedule: without a `WAIT` they may differ (P5). A
`WAIT` reads STATUS until BUSY is 0, so it ends only once the unit has executed, and so does the run
(R225). DESIGN CHOICE, log entry 14. -/
def HostProg.run {α : Type} : HostProg α → List (List Turn) → State → HostRun α
  | .done a, sched, s => (s.otherTurns (sched.headD [])).settle fun t => .finished a t
  | .write addr v next, sched, s =>
    match (s.otherTurns (sched.headD [])).access (.write addr 4 v) with
    | (t, .ok) => next.run sched.tail t
    | (t, _) => .refused t
  | .read addr next, sched, s =>
    match (s.otherTurns (sched.headD [])).access (.read addr 4) with
    | (t, .data w) => (next w).run sched.tail t
    | (t, _) => .refused t
  | .wait next, sched, s =>
    (s.otherTurns (sched.headD [])).settle fun t => (next t.statusWord).run sched.tail t

/-! ### The lines of a host program (R93) -/

/-- The soft reset (R35). -/
def HostProg.softReset {α : Type} (next : HostProg α) : HostProg α := .write 0x0000C 0x80000000 next

/-- A command line: the CMD write and `WAIT`, with the STATUS value read last. -/
def HostProg.command {α : Type} (i : Instr) (next : Word → HostProg α) : HostProg α :=
  .write 0x00000 (encode i) (.wait next)

/-- Command lines of commands that do not fault once decoded (R100 (e)). -/
def HostProg.commands {α : Type} (is : List Instr) (next : HostProg α) : HostProg α :=
  is.foldr (fun i k => .command i fun _ => k) next

/-- `STATUS.ERR` of a STATUS value (R30). -/
def statusErr (status : Word) : Bool := status.getLsbD 2

/-- `CHASH Rd`: after a fault the host resets the block and goes on with `exhausted` (R154, R168). -/
def HostProg.chash {α : Type} (rd : RegId) (exhausted next : HostProg α) : HostProg α :=
  .command (.chash rd) fun status => if statusErr status then .softReset exhausted else next

/-- A `WR` line for each pair of an address and a value. -/
def HostProg.writes {α : Type} (ws : List (Nat × Word)) (next : HostProg α) : HostProg α :=
  ws.foldr (fun w k => .write w.1 w.2 k) next

/-- An `RD` line for each address. -/
def HostProg.reads {α : Type} : List Nat → (List Word → HostProg α) → HostProg α
  | [], next => next []
  | a :: as, next => .read a fun w => .reads as fun ws => next (w :: ws)

/-- The port address of R[k][i] (R57). -/
def slotAddr (k : RegId) (i : Nat) : Nat := 0x10000 + 0x1000 * k + 4 * i

/-- `LOAD Rk` of a ring element the host holds. -/
def HostProg.load {α : Type} (k : RegId) (v : RingValue pSetla) (next : HostProg α) : HostProg α :=
  .writes ((List.range pSetla.n).map fun i => (slotAddr k i, BitVec.ofNat 32 (lane v.coeffs i))) next

/-- `LOAD Rk` of words that arrived from outside, from slot i on. STATUS is read after each write; a
coefficient out of range raises COEFF_RANGE, and the host resets the block and rejects (R168). -/
def HostProg.loadChecked {α : Type} (k : RegId) (reject next : HostProg α) : Nat → RawRing → HostProg α
  | _, [] => next
  | i, v :: vs =>
    .write (slotAddr k i) v <| .read 0x00008 fun status =>
      if statusErr status then .softReset reject else .loadChecked k reject next (i + 1) vs

/-- `LOAD Rk` of a ring element that arrived from outside, rejected when it is malformed (R168). -/
def HostProg.loadRaw {α : Type} (k : RegId) (r : RawRing) (reject next : HostProg α) : HostProg α :=
  if r.length = pSetla.n then .loadChecked k reject next 0 r else .softReset reject

/-- `READ Rk`. -/
def HostProg.readRing {α : Type} (k : RegId) (next : RingValue pSetla → HostProg α) : HostProg α :=
  .reads ((List.range pSetla.n).map (slotAddr k)) fun ws => next (.ofWords ws)

/-- `WR DIGEST[0..15]` (R27, R154). -/
def HostProg.writeDigest {α : Type} (d : BitVec 512) (next : HostProg α) : HostProg α :=
  .writes ((List.range 16).map fun j => (0x00080 + 4 * j, getWord d j)) next

/-- `WR KEY[0..7]` (R26, R161). -/
def HostProg.writeKey {α : Type} (key : BitVec pSetla.klen) (next : HostProg α) : HostProg α :=
  .writes ((List.range 8).map fun j => (0x00040 + 4 * j, getWord key j)) next

/-- The integer of words, least significant first (R60). -/
def intOfWords (ws : List Word) : Nat := ws.foldr (fun w n => w.toNat + 2 ^ 32 * n) 0

/-- `RD KEY[0..7]` (R26, R164). -/
def HostProg.readKey {α : Type} (next : BitVec pSetla.klen → HostProg α) : HostProg α :=
  .reads ((List.range 8).map fun j => 0x00040 + 4 * j) fun ws =>
    next (BitVec.ofNat pSetla.klen (intOfWords ws))

/-! ### The command sequences of the protocol -/

/-- KeyGen as commands (R155). -/
def keyGenCmds (ra1 ra2 rs re1 re2 rt1 rt2 : RegId) : List Instr :=
  [.sampleb rs 1, .sampleb re1 1, .sampleb re2 1, .mul rt1 ra1 rs, .add rt1 rt1 re1,
    .mul rt2 ra2 rs, .add rt2 rt2 re2]

/-- The loop body of Signcrypt before the line in which the host hashes (R157). -/
def commitCmds (ra1 ra2 ry rv1 rv2 ru1 ru2 : RegId) : List Instr :=
  [.sampleb ry 32768, .mul rv1 ra1 ry, .mul rv2 ra2 ry, .compress ru1 rv1, .compress ru2 rv2]

/-- The loop body of Signcrypt after the challenge (R157). -/
def respondCmds (rs re1 re2 ry rv1 rv2 rc rz rp rw1 rw2 : RegId) : List Instr :=
  [.mul rz rs rc, .add rz rz ry, .mul rp re1 rc, .sub rw1 rv1 rp, .mul rp re2 rc,
    .sub rw2 rv2 rp, .compress rw1 rw1, .compress rw2 rw2]

/-- The blinding of an accepted attempt up to the key (R161). -/
def blindCmds (rt1r ry ry0 rx : RegId) : List Instr :=
  [.sampleb ry0 32768, .mul rx rt1r ry, .add rx rx ry0]

/-- The blinding once the host has written KEY (R161). -/
def addKeyCmds (rx rp : RegId) : List Instr := [.encode rp, .add rx rx rp]

/-- Steps 1 and 2 of Unsigncrypt (R163, R164). -/
def recoverCmds (ra1 ra2 rt1s rt2s rsr rz rc rx rw1 rw2 rp : RegId) : List Instr :=
  [.mul rw1 ra1 rz, .mul rp rt1s rc, .sub rw1 rw1 rp, .mul rw2 ra2 rz, .mul rp rt2s rc,
    .sub rw2 rw2 rp, .mul rp rw1 rsr, .sub rp rx rp, .decode rp]

/-! ### The protocol as host programs -/

/-- The host's part of ChallengeHash on two compressed registers, then `CHASH Rc` and the challenge:
read, serialize, hash, write DIGEST, expand (R154, R157, R166). -/
def challengeProg {α : Type} (h : HostFns pSetla) (ru1 ru2 rc : RegId) (m : Bytes)
    (key : CipherKey pSetla) (pkS pkR : PubKey (RingValue pSetla)) (exhausted : HostProg α)
    (next : RingValue pSetla → RingValue pSetla → RingValue pSetla → HostProg α) : HostProg α :=
  .readRing ru1 fun u1 => .readRing ru2 fun u2 =>
    .writeDigest (h.digest u1 u2 m key pkS pkR) <|
      .chash rc exhausted <| .readRing rc fun c => next u1 u2 c

/-- KeyGen, in the registers of P1 (R155). -/
def keyGenProg (a : PublicElems (RingValue pSetla)) :
    HostProg (SecKey (RingValue pSetla) × PubKey (RingValue pSetla)) :=
  .load 0 a.a1 <| .load 1 a.a2 <| .commands (keyGenCmds 0 1 2 3 4 5 6) <|
    .readRing 2 fun s => .readRing 3 fun e1 => .readRing 4 fun e2 =>
      .readRing 5 fun t1 => .readRing 6 fun t2 =>
        .done ({ s := s, e1 := e1, e2 := e2 }, { t1 := t1, t2 := t2 })

/-- Step 3 of Signcrypt: the blinding, the cipher, and the bundle (R161, R162). -/
def blindProg (h : HostFns pSetla) (m : Bytes) (key : CipherKey pSetla) (z c : RingValue pSetla) :
    HostProg (SigncryptResult pSetla) :=
  .commands (blindCmds 5 6 7 8) <| .writeKey (h.keyOfCipher key) <| .commands (addKeyCmds 8 15) <|
    .readRing 8 fun x => .done (.bundle { z := z, c := c, x := x, eps := h.encrypt m key })

/-- The rejection-sampling loop, in the registers of P2, with `left` attempts left at attempt number k
(R157 to R162). -/
def signcryptLoopProg (h : HostFns pSetla) (pkS pkR : PubKey (RingValue pSetla)) (m : Bytes) :
    Nat → Nat → HostProg (SigncryptResult pSetla)
  | 0, _ => .done .fatalConfiguration
  | left + 1, k =>
    .commands (commitCmds 0 1 6 7 8 9 10) <|
      challengeProg h 9 10 11 m (h.hostRng k) pkS pkR (.done .fatalInternal) fun u1 u2 c =>
        .commands (respondCmds 2 3 4 6 7 8 11 12 15 13 14) <|
          .readRing 12 fun z => .readRing 13 fun u1' => .readRing 14 fun u2' =>
            if withinBound pSetla z && (u1 == u1') && (u2 == u2') then blindProg h m (h.hostRng k) z c
            else signcryptLoopProg h pkS pkR m left (k + 1)

/-- Signcrypt: the inputs are loaded, the receiver's key as it arrived (R156 to R162, R168). -/
def signcryptProg (h : HostFns pSetla) (a : PublicElems (RingValue pSetla))
    (sk : SecKey (RingValue pSetla)) (pkS : PubKey (RingValue pSetla)) (pkR : PubKey RawRing)
    (m : Bytes) : HostProg (SigncryptResult pSetla) :=
  .load 0 a.a1 <| .load 1 a.a2 <| .load 2 sk.s <| .load 3 sk.e1 <| .load 4 sk.e2 <|
    .loadRaw 5 pkR.t1 (.done .fatalPrecondition) <|
      match PubKey.ofRaw pkR with
      | none => .softReset (.done .fatalPrecondition)
      | some pkR => signcryptLoopProg h pkS pkR m h.maxAttempts 0

/-- Step 4 of Unsigncrypt: recompute the challenge, compare it lane by lane, check z (R166). When the
challenge is exhausted the block is reset and the answer is `FAIL` (R168). -/
def verifyProg (h : HostFns pSetla) (m : Bytes) (key : CipherKey pSetla)
    (pkS pkR : PubKey (RingValue pSetla)) : HostProg UnsigncryptResult :=
  .commands [.compress 8 8, .compress 9 9] <|
    challengeProg h 8 9 11 m key pkS pkR (.done .fail) fun _ _ c' =>
      .readRing 6 fun c => .readRing 5 fun z =>
        .done (if c == c' && withinBound pSetla z then .message m else .fail)

/-- Unsigncrypt, in the registers of P3, with the sender's key and the bundle as they arrived (R163 to
R168). -/
def unsigncryptProg (h : HostFns pSetla) (a : PublicElems (RingValue pSetla))
    (skR : SecKey (RingValue pSetla)) (pkR : PubKey (RingValue pSetla)) (pkS : PubKey RawRing)
    (b : Bundle RawRing) : HostProg UnsigncryptResult :=
  .load 0 a.a1 <| .load 1 a.a2 <| .load 4 skR.s <|
    .loadRaw 2 pkS.t1 (.done .fatalPrecondition) <| .loadRaw 3 pkS.t2 (.done .fatalPrecondition) <|
      .loadRaw 5 b.z (.done .fatalPrecondition) <| .loadRaw 6 b.c (.done .fatalPrecondition) <|
        .loadRaw 7 b.x (.done .fatalPrecondition) <|
          .commands (recoverCmds 0 1 2 3 4 5 6 7 8 9 10) <|
            .readRing 2 fun t1 => .readRing 3 fun t2 => .readKey fun k =>
              verifyProg h (h.plaintext b.eps (h.cipherOfKey k)) (h.cipherOfKey k)
                { t1 := t1, t2 := t2 } pkR

/-! ### The same lines as turns of an interleaving -/

/-- `WR addr, v`. -/
def hostWrite (addr : Nat) (v : Word) : Turn := .port (.write addr 4 v)

/-- `RD addr`. -/
def hostRead (addr : Nat) : Turn := .port (.read addr 4)

/-- A command line: the CMD write, the unit's step, and the STATUS read that ends the `WAIT`. -/
def cmdTurns (i : Instr) : List Turn := [hostWrite 0x00000 (encode i), .unit, hostRead 0x00008]

/-- `LOAD Rk`: one write for each listed slot, coefficients as integers (R93). -/
def loadTurns (k : RegId) (cs : List (Nat × Int)) : List Turn :=
  cs.map fun c => hostWrite (slotAddr k c.1) (BitVec.ofNat 32 (residue pSetla c.2))

/-- `READ Rk`: n reads of the window of Rk. -/
def readTurns (k : RegId) : List Turn := (List.range pSetla.n).map fun i => hostRead (slotAddr k i)

end Sys2Proof.Machine
end

