-- ==== Sys2Proof/Laws/HostProtocol.lean ====
section
/-! SUPPORT. The coefficients of the host's ring operations: canonicalizing changes nothing that the
ring functions compute, so they are the ring functions of the block. What each line of a host program
does in a run. -/

namespace Sys2Proof.Machine

/-! ### Canonical ring elements -/

@[simp] theorem coeffs_canon {p : Params} (v : RingElem p) :
    (RingValue.canon v).coeffs = vmap (· % p.q) v := rfl

theorem lane_canon {p : Params} (v : RingElem p) {i : Nat} (h : i < p.n) :
    lane (RingValue.canon v).coeffs i = lane v i % p.q := lane_vmap _ v h

theorem RingValue.lane_mod {p : Params} (a : RingValue p) (i : Nat) :
    lane a.coeffs i % p.q = lane a.coeffs i := by
  rcases Nat.lt_or_ge i p.n with h | h
  · refine a.canonical _ ?_
    rw [lane_eq_getElem _ h]
    simp
  · rw [lane_of_le _ h, Nat.zero_mod]

/-- Every coefficient is a canonical residue (R10, R171). -/
theorem RingValue.lane_lt {p : Params} (hq : 0 < p.q) (a : RingValue p) (i : Nat) :
    lane a.coeffs i < p.q := a.lane_mod i ▸ Nat.mod_lt _ hq

theorem RingValue.ext_lanes {p : Params} {a b : RingValue p}
    (h : ∀ i < p.n, lane a.coeffs i = lane b.coeffs i) : a = b := by
  obtain ⟨a, ha⟩ := a
  obtain ⟨b, hb⟩ := b
  obtain rfl : a = b := eq_of_lanes h
  rfl

/-- Canonicalizing a ring element whose lanes are canonical changes nothing. -/
theorem coeffs_canon_of_lanes {p : Params} {v : RingElem p}
    (h : ∀ i < p.n, lane v i % p.q = lane v i) : (RingValue.canon v).coeffs = v :=
  eq_of_lanes fun i hi => (lane_canon v hi).trans (h i hi)

theorem residue_mod (p : Params) (hq : 0 < p.q) (v : Int) : residue p v % p.q = residue p v :=
  Nat.mod_eq_of_lt (residue_lt p hq v)

@[simp] theorem RingValue.coeffs_add {p : Params} (a b : RingValue p) :
    (a.add b).coeffs = ringAdd p a.coeffs b.coeffs :=
  coeffs_canon_of_lanes fun i hi => by rw [lane_ringAdd _ _ _ hi, Nat.mod_mod]

theorem RingValue.coeffs_sub {p : Params} (hq : 0 < p.q) (a b : RingValue p) :
    (a.sub b).coeffs = ringSub p a.coeffs b.coeffs :=
  coeffs_canon_of_lanes fun i hi => by rw [lane_ringSub _ _ _ hi, residue_mod p hq]

theorem RingValue.coeffs_mul {p : Params} (hq : 0 < p.q) (a b : RingValue p) :
    (a.mul b).coeffs = ringMul p a.coeffs b.coeffs :=
  coeffs_canon_of_lanes fun k hk => by rw [lane_ringMul _ _ _ hk]; exact residue_mod p hq _

/-- COMPRESS never exceeds its operand. -/
theorem compressLane_le_self (p : Params) (x : Nat) : compressLane p x ≤ x := by
  have hpos : 0 < 2 ^ p.d := Nat.two_pow_pos _
  have hdiv : x / 2 ^ p.d ≤ x := Nat.div_le_self _ _
  have hsplit : 2 ^ p.d * (x / 2 ^ p.d) + x % 2 ^ p.d = x := Nat.div_add_mod _ _
  simp only [compressLane, lowBits]
  split
  · rename_i h
    have : ((x : Int) - ((x % 2 ^ p.d : Nat) : Int)) / 2 ^ p.d = ((x / 2 ^ p.d : Nat) : Int) := by
      rw [show (x : Int) - ((x % 2 ^ p.d : Nat) : Int) = (2 ^ p.d : Int) * ((x / 2 ^ p.d : Nat) : Int) by
        have := congrArg (fun n : Nat => (n : Int)) hsplit
        push_cast at this ⊢
        omega]
      exact Int.mul_ediv_cancel_left _ (by exact_mod_cast hpos.ne')
    rw [this]
    omega
  · rename_i h
    have hx : 2 ≤ x % 2 ^ p.d := by
      have := Nat.two_pow_pos (p.d - 1)
      omega
    have hmul : x / 2 ^ p.d ≤ 2 ^ p.d * (x / 2 ^ p.d) := Nat.le_mul_of_pos_left _ hpos
    have : ((x : Int) - (((x % 2 ^ p.d : Nat) : Int) - 2 ^ p.d)) / 2 ^ p.d =
        ((x / 2 ^ p.d : Nat) : Int) + 1 := by
      rw [show (x : Int) - (((x % 2 ^ p.d : Nat) : Int) - 2 ^ p.d) =
          (2 ^ p.d : Int) * (((x / 2 ^ p.d : Nat) : Int) + 1) by
        have := congrArg (fun n : Nat => (n : Int)) hsplit
        push_cast at this ⊢
        rw [mul_add]
        omega]
      exact Int.mul_ediv_cancel_left _ (by exact_mod_cast hpos.ne')
    rw [this]
    omega

theorem RingValue.coeffs_compress {p : Params} (hq : 0 < p.q) (a : RingValue p) :
    a.compress.coeffs = ringCompress p a.coeffs :=
  coeffs_canon_of_lanes fun i hi => by
    rw [lane_ringCompress _ _ hi]
    exact Nat.mod_eq_of_lt (Nat.lt_of_le_of_lt (compressLane_le_self p _) (a.lane_lt hq i))

theorem RingValue.coeffs_encode {p : Params} (hq : 0 < p.q) (key : BitVec p.klen) :
    (RingValue.encode key : RingValue p).coeffs = ringEncode p key.toNat :=
  coeffs_canon_of_lanes fun i hi => by
    have hh : p.half < p.q := by simp only [Params.half]; omega
    rw [lane_ringEncode _ _ hi]
    split
    · cases key.toNat.testBit i
      · simp
      · simpa using Nat.mod_eq_of_lt hh
    · simp

theorem coeffs_sampleBounded {p : Params} (hq : 0 < p.q) {bound : Nat} (r : Draws bound) :
    (sampleBounded r : RingValue p).coeffs = ringOfDraws p r.answer :=
  coeffs_canon_of_lanes fun i hi => by rw [lane_ringOfDraws _ _ hi, residue_mod p hq]

/-- The answers a SAMPLEB command finds in a state, as draws of the protocol (R110, R111). -/
def boundedDraws (s : State) (bound : Nat) : Draws bound :=
  ⟨s.laneDraw (-(bound : Int)) bound, fun i => laneDraw_mem s (by omega) i⟩

/-- SAMPLEB computes `sampleBounded` of the answers it gets (R111, R155, R157, R161). -/
theorem execSampleb_sampleBounded (rd : RegId) (bound : Nat) (s : State)
    (hr : s.env.entropyReady = true) :
    ∃ t, exec (.sampleb rd bound) s = .next t ∧
      s.WroteRing t rd (lane (sampleBounded (boundedDraws s bound) : RingValue pSetla).coeffs) := by
  rw [coeffs_sampleBounded (p := pSetla) q_pos]
  obtain ⟨t, ht, hw, _⟩ := finishSample_spec s rd (ringOfDraws pSetla (boundedDraws s bound).answer)
    (fun i hi => by rw [lane_ringOfDraws _ _ hi]; exact lt_width_of_lt_q (residue_lt _ q_pos _)) hr
  exact ⟨t, ht, hw⟩

/-! ### Received ring elements -/

theorem RawRing.wellFormed_iff (p : Params) (r : RawRing) :
    RawRing.wellFormed p r = true ↔ r.length = p.n ∧ ∀ v ∈ r, v.toNat < p.q := by
  simp [RawRing.wellFormed]

theorem RingValue.ofRaw_eq_none {p : Params} (r : RawRing) :
    (RingValue.ofRaw r : Option (RingValue p)) = none ↔ RawRing.wellFormed p r = false := by
  simp [RingValue.ofRaw]

/-! ### The lines of a host program -/

@[simp] theorem otherTurns_nil (s : State) : s.otherTurns [] = s := rfl

@[simp] theorem otherTurns_cons (s : State) (t : Turn) (ts : List Turn) :
    s.otherTurns (t :: ts) = (s.otherTurn t).otherTurns ts := rfl

/-- The unit's turn at an idle unit changes nothing. -/
theorem unitTurn_of_idle {s : State} (hb : s.busy = false) : s.unitTurn = .next s := by
  simp [State.unitTurn, hb]

theorem otherTurn_unit_of_next {s t : State} (h : s.unitTurn = .next t) : s.otherTurn .unit = t := by
  simp only [State.otherTurn, h]

/-- Once the unit has executed, nothing is left to settle. -/
theorem settle_of_next {α : Type} {s t : State} (next : State → HostRun α) (h : s.unitTurn = .next t)
    (ht : t.busy = false) : s.settle next = next t := by
  simp [State.settle, h, ht]

/-- It makes no difference whether the unit executes while the host waits or just before. -/
theorem settle_otherTurn_unit {α : Type} {s t : State} (next : State → HostRun α)
    (h : s.unitTurn = .next t) (ht : t.busy = false) :
    (s.otherTurn .unit).settle next = s.settle next := by
  rw [otherTurn_unit_of_next h, settle_of_next next h ht, settle_of_next next (unitTurn_of_idle ht) ht]

/-- A run is over only where the unit is not busy (R225). -/
theorem settle_cases {α : Type} {s : State} {next : State → HostRun α} {r : HostRun α}
    (h : s.settle next = r) : (∃ t, t.busy = false ∧ next t = r) ∨ ∃ t, r = .stuck t := by
  simp only [State.settle] at h
  split at h
  · rename_i t _
    cases hb : t.busy with
    | true => rw [hb] at h; exact .inr ⟨t, h.symm⟩
    | false => rw [hb] at h; exact .inl ⟨t, hb, h⟩
  all_goals exact .inr ⟨s, h.symm⟩

/-- Whatever the program and the schedule, a finished run leaves the unit idle or in error (R225). -/
theorem run_finished_not_busy {α : Type} {prog : HostProg α} :
    ∀ {sched : List (List Turn)} {s t : State} {a : α}, prog.run sched s = .finished a t →
      t.busy = false := by
  induction prog with
  | done b =>
    intro sched s t a h
    rcases settle_cases h with ⟨t', hb, ht⟩ | ⟨t', ht⟩
    · cases ht; exact hb
    · cases ht
  | write addr v next ih =>
    intro sched s t a h
    simp only [HostProg.run] at h
    split at h
    · exact ih h
    · cases h
  | read addr next ih =>
    intro sched s t a h
    simp only [HostProg.run] at h
    split at h
    · exact ih _ h
    · cases h
  | wait next ih =>
    intro sched s t a h
    rcases settle_cases h with ⟨t', _, ht⟩ | ⟨t', ht⟩
    · exact ih _ ht
    · cases ht

theorem run_done {α : Type} (a : α) (sched : List (List Turn)) {s : State} (hb : s.busy = false) :
    (HostProg.done a).run ([] :: sched) s = .finished a s :=
  settle_of_next _ (unitTurn_of_idle hb) hb

theorem run_write_ok {α : Type} {addr : Nat} {v : Word} (next : HostProg α)
    (sched : List (List Turn)) {s t : State}
    (h : (s.otherTurns (sched.headD [])).access (.write addr 4 v) = (t, .ok)) :
    (HostProg.write addr v next).run sched s = next.run sched.tail t := by
  simp only [HostProg.run, h]

theorem run_read_data {α : Type} {addr : Nat} {w : Word} (next : Word → HostProg α)
    (sched : List (List Turn)) {s t : State}
    (h : (s.otherTurns (sched.headD [])).access (.read addr 4) = (t, .data w)) :
    (HostProg.read addr next).run sched s = (next w).run sched.tail t := by
  simp only [HostProg.run, h]

/-- A command line on an idle unit without error: the run goes on from the state the command leaves,
with the STATUS value it leaves, whether the unit executes just before the `WAIT` or within it (R28,
R67, R93). -/
theorem run_command {α : Type} {i : Instr} (next : Word → HostProg α) (sched : List (List Turn))
    {early : List Turn} (hearly : early = [] ∨ early = [.unit]) {s t : State}
    (hb : s.busy = false) (he : s.err = false) (hd : decode (encode i) = some i)
    (hx : exec i (s.issue (encode i)) = .next t) (ht : t.busy = false) :
    (HostProg.command i next).run ([] :: early :: sched) s = (next t.statusWord).run sched t := by
  have hw : s.access (.write 0x00000 4 (encode i)) = (s.issue (encode i), .ok) := by
    simp [State.access, State.judge, portReg, controlReg, State.gate, PortReq.size, PortReq.addr,
      PortReq.isWrite, PortReg.readOnly, PortReg.isData, PortReg.isSlot, State.writeReg, hb, he]
  have hu : (s.issue (encode i)).unitTurn = .next t := by
    simp only [State.unitTurn, State.execute, State.issue, hd]
    exact hx
  rw [HostProg.command, run_write_ok (s := s) _ ([] :: early :: sched) hw]
  rcases hearly with rfl | rfl
  · exact settle_of_next _ hu ht
  · exact (settle_otherTurn_unit _ hu ht).trans (settle_of_next _ hu ht)

/-- The soft reset is accepted in every state (R34, R35, R210). -/
theorem run_softReset {α : Type} (next : HostProg α) (sched : List (List Turn)) (s : State) :
    (HostProg.softReset next).run sched s =
      next.run sched.tail (s.otherTurns (sched.headD [])).resetBlock := by
  refine run_write_ok _ _ ?_
  simp [State.access, State.judge, portReg, controlReg, State.gate, PortReq.size, PortReq.addr,
    PortReq.isWrite, PortReg.readOnly, PortReg.isData, PortReg.isSlot, State.writeReg]

/-- After an exhausted CHASH the host has reset the block (R154, R168). -/
theorem run_chash_exhausted {α : Type} (rd : RegId) (exhausted next : HostProg α)
    (sched : List (List Turn)) {early : List Turn} (hearly : early = [] ∨ early = [.unit])
    {s t : State} (hb : s.busy = false) (he : s.err = false)
    (hd : decode (encode (.chash rd)) = some (.chash rd))
    (hx : exec (.chash rd) (s.issue (encode (.chash rd))) = .next t) (ht : t.busy = false)
    (hf : statusErr t.statusWord = true) :
    (HostProg.chash rd exhausted next).run ([] :: early :: [] :: sched) s =
      exhausted.run sched t.resetBlock := by
  rw [HostProg.chash, run_command _ _ hearly hb he hd hx ht]
  simp only [hf, if_true]
  exact run_softReset _ _ _

end Sys2Proof.Machine
end

