-- ==== Sys2Proof/Laws/PerInstr.lean ====
section
/-! SUPPORT. Statements about every command as a term, made per constructor. -/

namespace Sys2Proof

/-- The fields of the word of five in-range fields are those fields (R81). -/
theorem splitWord_joinFields (f : CmdFields) (h : f.inRange = true) : splitWord (joinFields f) = f := by
  obtain ⟨op, rd, rs1, rs2, imm⟩ := f
  simp only [CmdFields.inRange, Bool.and_eq_true, decide_eq_true_eq] at h
  simp only [splitWord, joinFields, bits, BitVec.toNat_ofNat, CmdFields.mk.injEq]
  omega

end Sys2Proof

namespace Sys2Proof.Laws.EncodingShape

/-- The fields of a well-formed command's word are the command's own, and they pass the check of its
format: every operand stands in its field, and every field its format does not use is zero (R81, R82,
R87). -/
def Statement (i : Instr) : Prop :=
  i.wellFormed = true → splitWord (encode i) = i.fields ∧ i.fields.wellFormed = true

theorem of_inRange {i : Instr} (h : i.wellFormed = true → i.fields.inRange = true)
    (hf : i.wellFormed = true → i.fields.wellFormed = true) : Statement i :=
  fun hw => ⟨splitWord_joinFields _ (h hw), hf hw⟩

theorem add (rd rs1 rs2 : RegId) : Statement (.add rd rs1 rs2) :=
  of_inRange (fun _ => by simp [Instr.fields, CmdFields.inRange])
    (fun _ => by simp [Instr.fields, CmdFields.wellFormed, CmdFields.inRange, formatOfOpcode,
      CmdFields.unusedZero])

theorem sub (rd rs1 rs2 : RegId) : Statement (.sub rd rs1 rs2) :=
  of_inRange (fun _ => by simp [Instr.fields, CmdFields.inRange])
    (fun _ => by simp [Instr.fields, CmdFields.wellFormed, CmdFields.inRange, formatOfOpcode,
      CmdFields.unusedZero])

theorem mul (rd rs1 rs2 : RegId) : Statement (.mul rd rs1 rs2) :=
  of_inRange (fun _ => by simp [Instr.fields, CmdFields.inRange])
    (fun _ => by simp [Instr.fields, CmdFields.wellFormed, CmdFields.inRange, formatOfOpcode,
      CmdFields.unusedZero])

theorem sampleb (rd : RegId) (imm : Nat) : Statement (.sampleb rd imm) := by
  have range : (Instr.sampleb rd imm).wellFormed = true → imm < 65536 := by
    simp only [Instr.wellFormed, decide_eq_true_eq, imp_self]
  exact of_inRange (fun h => by simp [Instr.fields, CmdFields.inRange, range h])
    (fun h => by simp [Instr.fields, CmdFields.wellFormed, CmdFields.inRange, formatOfOpcode,
      CmdFields.unusedZero, range h])

theorem sampleu (rd : RegId) : Statement (.sampleu rd) :=
  of_inRange (fun _ => by simp [Instr.fields, CmdFields.inRange])
    (fun _ => by simp [Instr.fields, CmdFields.wellFormed, CmdFields.inRange, formatOfOpcode,
      CmdFields.unusedZero])

theorem compress (rd rs1 : RegId) : Statement (.compress rd rs1) :=
  of_inRange (fun _ => by simp [Instr.fields, CmdFields.inRange])
    (fun _ => by simp [Instr.fields, CmdFields.wellFormed, CmdFields.inRange, formatOfOpcode,
      CmdFields.unusedZero])

theorem chash (rd : RegId) : Statement (.chash rd) :=
  of_inRange (fun _ => by simp [Instr.fields, CmdFields.inRange])
    (fun _ => by simp [Instr.fields, CmdFields.wellFormed, CmdFields.inRange, formatOfOpcode,
      CmdFields.unusedZero])

theorem encode (rd : RegId) : Statement (.encode rd) :=
  of_inRange (fun _ => by simp [Instr.fields, CmdFields.inRange])
    (fun _ => by simp [Instr.fields, CmdFields.wellFormed, CmdFields.inRange, formatOfOpcode,
      CmdFields.unusedZero])

theorem decode (rs1 : RegId) : Statement (.decode rs1) :=
  of_inRange (fun _ => by simp [Instr.fields, CmdFields.inRange])
    (fun _ => by simp [Instr.fields, CmdFields.wellFormed, CmdFields.inRange, formatOfOpcode,
      CmdFields.unusedZero])

end Sys2Proof.Laws.EncodingShape
end

