-- ==== Sys2Proof/Tests/Slice0.lean ====
section
/-! SUPPORT. Tests. Expected values come from the spec: V1 to V9 are the vectors of `95_test_vectors.md`, P1 to P5 its
programs; an example of a rule is named by the rule. The last part shows, for each statement with hypotheses, concrete values
that meet all of them together. -/

namespace Sys2Proof.Tests

open Sys2Proof Sys2Proof.Machine

/-! ### Well-formedness: one ill-formed term for each check, refused -/

/-- The fields of `ADD R0, R0, R0`. -/
def addFields : CmdFields := { op := 1, rd := 0, rs1 := 0, rs2 := 0, imm16 := 0 }

theorem test_wf_accepts_add : addFields.wellFormed = true := by decide

theorem test_wf_refuses_fields_wider_than_their_bits :
    (CmdFields.inRange { addFields with op := 16 } || CmdFields.inRange { addFields with rd := 16 } ||
      CmdFields.inRange { addFields with rs1 := 16 } || CmdFields.inRange { addFields with rs2 := 16 } ||
      CmdFields.inRange { addFields with imm16 := 65536 }) = false := by decide

theorem test_wf_refuses_reserved_opcodes :
    ([0, 10, 11, 12, 13, 14, 15].any fun op => CmdFields.wellFormed { addFields with op := op }) = false := by decide

theorem test_wf_refuses_unused_imm16 :
    ([1, 2, 3, 5, 6, 7, 8, 9].any fun op => CmdFields.wellFormed { addFields with op := op, imm16 := 1 }) = false := by
  decide

theorem test_wf_refuses_unused_rs2 :
    ([4, 5, 6, 7, 8, 9].any fun op => CmdFields.wellFormed { addFields with op := op, rs2 := 1 }) = false := by decide

theorem test_wf_refuses_unused_rs1 :
    ([4, 5, 7, 8].any fun op => CmdFields.wellFormed { addFields with op := op, rs1 := 1 }) = false := by decide

theorem test_wf_refuses_unused_rd : CmdFields.wellFormed { addFields with op := 9, rd := 1 } = false := by decide

theorem test_wf_refuses_wide_bound :
    (Instr.sampleb 0 65535).wellFormed = true ∧ (Instr.sampleb 0 65536).wellFormed = false := by decide

/-! ### Decoding: words written out from R81 and R85 (V1) -/

theorem test_decode_add :
    decode 0b0000000000000000_0010_0001_0011_0001 = some (.add 3 1 2) ∧ decode 0x0000FFF1 = some (.add 15 15 15) := by
  decide

theorem test_decode_sub : decode 0b0000000000000000_0010_0001_0011_0010 = some (.sub 3 1 2) := by decide

theorem test_decode_mul : decode 0b0000000000000000_0010_0000_0100_0011 = some (.mul 4 0 2) := by decide

theorem test_decode_sampleb :
    decode 0b1000000000000000_0000_0000_0101_0100 = some (.sampleb 5 32768) ∧
      decode 0x00010024 = some (.sampleb 2 1) ∧ decode 0x00000004 = some (.sampleb 0 0) := by decide

theorem test_decode_sampleu : decode 0b0000000000000000_0000_0000_0000_0101 = some (.sampleu 0) := by decide

theorem test_decode_compress : decode 0b0000000000000000_0000_0100_0110_0110 = some (.compress 6 4) := by decide

theorem test_decode_chash : decode 0b0000000000000000_0000_0000_0111_0111 = some (.chash 7) := by decide

theorem test_decode_encode : decode 0b0000000000000000_0000_0000_1000_1000 = some (.encode 8) := by decide

theorem test_decode_decode :
    decode 0b0000000000000000_0000_1001_0000_1001 = some (.decode 9) ∧ decode 0x00000009 = some (.decode 0) := by decide

theorem test_decode_refuses_illegal_words :
    ([0x00000000, 0xFFFFFFFF, 0x0000000A, 0x00010001, 0x00001005, 0x00000105, 0x00001466, 0x00010466, 0x00000177,
      0x00000019, 0x00000104].map decode).all Option.isNone = true := by decide

/-- R92 and P4: the word of `CLR R9`. -/
theorem test_encode_clr : encode (Instr.clr 9) = 0x00009992 ∧ (Instr.clr 9).asm = "SUB R9, R9, R9" := by decide

theorem test_decodeTableWord : decodeTableWord 32 0x2043 = some (.mul 4 0 2) := by decide

/-! ### The commands -/

/-- A toy ring element written out. -/
def toy (l : List Nat) : RingElem pToy8 := vtab pToy8.n (fun i => l.getD i 0)

/-- The reset state with every ring slot holding v. -/
def filled (v : Slot) : State := { State.reset with ring := Vector.replicate 16 (Vector.replicate 1024 v) }

theorem filled_slot (v : Slot) (k : RegId) {i : Nat} (h : i < 1024) : (filled v).slot k i = v.toNat := by
  rw [slot_eq_toNat _ _ h]
  simp [filled]

theorem filled_canonical {v : Slot} (hv : v.toNat < pSetla.q) : (filled v).Canonical := by
  intro k i
  rcases Nat.lt_or_ge i 1024 with h | h
  · rw [filled_slot v k h]; exact hv
  · rw [slot_of_le _ _ h]; decide

/-- The reset state with two slots set: `R[a][i] = x` and `R[b][j] = y`. -/
def twoSlots (a : RegId) (i : Fin 1024) (x : Slot) (b : RegId) (j : Fin 1024) (y : Slot) : State :=
  (State.reset.setSlot a i x).setSlot b j y

/-- What a slot of a register holds after a command, none when there is no next state. -/
def slotAfter (i : Instr) (s : State) (k : RegId) (j : Nat) : Option Nat :=
  match exec i s with
  | .next t => some (t.slot k j)
  | _ => none

/-- V2. -/
theorem test_add_toy :
    ringAdd pToy8 (toy [3, 250, 17, 0, 99, 1, 200, 45]) (toy [10, 20, 30, 40, 50, 60, 70, 80]) =
      toy [13, 13, 47, 40, 149, 61, 13, 125] := by decide

/-- V2: -1 + 1 = 0, with the destination also a source. -/
theorem test_add_wraps : slotAfter (.add 1 1 2) (twoSlots 1 5 33550336 2 5 1) 1 5 = some 0 := by decide

/-- V2. -/
theorem test_sub_toy :
    ringSub pToy8 (toy [3, 250, 17, 0, 99, 1, 200, 45]) (toy [10, 20, 30, 40, 50, 60, 70, 80]) =
      toy [250, 230, 244, 217, 49, 198, 130, 222] := by decide

/-- V2: 0 - 1 = q - 1, the first source being the minuend. -/
theorem test_sub_wraps : slotAfter (.sub 3 1 2) (twoSlots 1 0 0 2 0 1) 3 0 = some 33550336 := by decide

/-- V3: x * a is the negacyclic shift, and a square. -/
theorem test_mul_toy :
    ringMul pToy8 (toy [0, 1]) (toy [3, 250, 17, 0, 99, 1, 200, 45]) = toy [212, 3, 250, 17, 0, 99, 1, 200] ∧
      ringMul pToy8 (toy [3, 250, 17, 0, 99, 1, 200, 45]) (toy [3, 250, 17, 0, 99, 1, 200, 45]) =
        toy [229, 29, 128, 218, 114, 152, 214, 74] := by decide

/-- V4, the second and the first row: an answer of the oracle and its residue. -/
theorem test_sampleb_residues :
    ringOfDraws pToy8 (fun i => [8, -8, 5, 0, 1, -1, 2, 3].getD i 0) = toy [8, 249, 5, 0, 1, 256, 2, 3] ∧
      residue pSetla (-32768) = 33517569 := by decide

/-- R114: the command stays pending while the oracle is silent. -/
theorem test_sample_waits :
    (State.reset.setEntropyReady false).finishSample 0 (vtab 1024 fun _ => 7) =
      .next (State.reset.setEntropyReady false) := finishSample_stalled _ _ _ rfl

/-- V4, fourth row: a draw below q is stored as it is. -/
theorem test_sampleu_residues :
    ringOfDraws pToy8 (fun i => [3, 250, 17, 0, 99, 1, 200, 45].getD i 0) = toy [3, 250, 17, 0, 99, 1, 200, 45] := by
  decide

/-- V5. -/
theorem test_compress_lanes :
    [0, 16384, 16385, 32768, 49152, 49153, 33538048, 33538049, 33550336].map (compressLane pSetla) =
      [0, 0, 1, 1, 1, 2, 1023, 1024, 1024] := by decide

/-- V5. -/
theorem test_compress_toy :
    ringCompress pToy8 (toy [43, 256, 67, 199, 8, 58, 183, 28]) = toy [5, 32, 8, 25, 1, 7, 23, 3] := by decide

/-- V6: accepted and exhausted digests, the position limit among them. -/
theorem test_chash_toy :
    [8, 9, 17, 19].map (ringChallenge pToy8) =
        [some (toy [1, 1]), some (toy [256, 256]), some (toy [1, 1]), some (toy [0, 256, 1])] ∧
      ([0, 1, 5, 7, 16, 3280, 22963].map (ringChallenge pToy8)).all Option.isNone = true := by decide

/-- V6: 3^16 - 1 is accepted, 3^15 - 1 and the digest of forty digits 1 are exhausted. -/
theorem test_chash_weight :
    expandDigits pSetla 1024 43046720 0 = some (List.replicate 16 1) ∧
      expandDigits pSetla 1024 43046721 0 = some (List.replicate 16 33550336) ∧
      expandDigits pSetla 1024 14348906 0 = none ∧ expandDigits pSetla 1024 6078832729528464400 0 = none := by decide

/-- V7. -/
theorem test_encode_toy : ringEncode pToy8 11 = toy [128, 128, 0, 128] := by decide

/-- V7: KEY = 2^255 sets lane 255 and lane 256 stays 0. -/
theorem test_encode_top_bit :
    slotAfter (.encode 1) (State.reset.setKeyWord 7 0x80000000) 1 255 = some 16775168 ∧
      slotAfter (.encode 1) (State.reset.setKeyWord 7 0x80000000) 1 256 = some 0 := by decide +kernel

/-- V7. -/
theorem test_decode_lanes :
    [0, 8387584, 8387585, 16775168, 25162751, 25162752, 33550336].map (decodeBit pSetla) =
      [false, false, true, true, true, false, false] := by decide

/-- V7: lanes above KLEN are ignored. -/
theorem test_decode_toy :
    ringDecode pToy8 (toy [65, 64, 191, 192, 0, 0, 0, 0]) = 5 ∧
      ringDecode pToy8 (toy [136, 113, 254, 138, 0, 9, 256, 3]) = 11 := by decide

/-! ### The port (V8), faults (V9, P5) and the step -/

theorem test_port_constants :
    ([0x4, 0x14, 0x8].map fun a => (State.reset.access (.read a 4)).2) =
      [.data 0x53455401, .data 0x01FFF001, .data 0] := by decide

theorem test_port_refusals :
    ([.write 0x14 4 0, .read 0x28 4, .read 0x60 4, .read 0xC0 4, .read 0x2 4, .read 0x8 1, .read 0x20000 4].map fun t =>
      (State.reset.access t).2) = List.replicate 7 .buserr := by decide

theorem test_port_slot_write :
    ((State.reset.access (.write 0x13008 4 9)).1.access (.read 0x13008 4)).2 = .data 9 ∧
      ((State.reset.access (.write 0x1FFFC 4 7)).1).slot 15 1023 = 7 := by decide +kernel

theorem test_port_out_of_range_write :
    let t := (State.reset.access (.write 0x10000 4 33550337)).1
    t.statusWord = 0x00000304 ∧ t.slot 0 0 = 0 ∧ (State.reset.access (.write 0x10000 4 33550337)).2 = .ok := by decide

/-- P5: an exhausted CHASH leaves STATUS = 0x204 and, with IE_ERR, irq = 1. -/
theorem test_step_chash_fault :
    (match step ((State.reset.setCtrl 2).setDigestWord 0 1 |>.withFetchWord 32 0x77) with
      | .next t => t.statusWord == 0x00000204 && t.irq && t.cmd == 0x77
      | _ => false) = true := by decide +kernel

/-- P5: an illegal word leaves STATUS = 0x104. -/
theorem test_step_illegal_word :
    (match step (State.reset.withFetchWord 32 0xA) with
      | .next t => t.statusWord == 0x00000104
      | _ => false) = true := by decide

/-- `CHASH R7` issued without a `WAIT`, and at once `RD 0x17000` (P5). -/
def hastyRead : HostProg Word := .write 0x00000 0x77 (.read 0x17000 fun w => .done w)

/-- P5: the read is refused if it arrives before the Execute step and answered after it. -/
theorem test_run_without_wait_has_two_outcomes :
    (match hastyRead.run [] (State.reset.setDigestWord 0 0x0290D740) with
      | .refused _ => true
      | .finished _ _ | .stuck _ => false) = true ∧
    (match hastyRead.run [[], [.unit]] (State.reset.setDigestWord 0 0x0290D740) with
      | .finished w t => w == 1 && t.statusWord == 0x00000002
      | .refused _ | .stuck _ => false) = true := by decide +kernel

/-- V9, the end of a run: a program that ends with the CMD write of a command is over only after the Execute step, and one whose
oracle never answers is stuck with STATUS = 1. -/
theorem test_run_ends_after_execute :
    (match (HostProg.write 0x00000 0xA (.done ())).run [] State.reset with
      | .finished _ t => t.statusWord == 0x00000104
      | .refused _ | .stuck _ => false) = true ∧
    (match (HostProg.write 0x00000 0x00010024 (.done ())).run [[.entropy false]] State.reset with
      | .stuck t => t.statusWord == 0x00000001
      | .refused _ | .finished _ _ => false) = true := by decide +kernel

/-! ### Witnesses: the hypotheses of each statement, met together -/

/-- A busy unit with a word in CMD and a list of turns ahead. -/
def busyOn (w : Word) (ts : List Turn) : State := ((filled 5).issue w).setTurns ts

/-- The error state of an exhausted CHASH with a list of turns ahead. -/
def inError (ts : List Turn) : State := ((filled 5).raiseFault .chashExhausted).setTurns ts

theorem busyOn_inv (w : Word) (ts : List Turn) : (busyOn w ts).Inv := by
  refine ⟨?_, by simp [busyOn, State.StatusOk, filled, State.issue, State.setTurns, State.reset]⟩
  exact filled_canonical (v := 5) (by decide)

theorem inError_inv (ts : List Turn) : (inError ts).Inv := by
  refine ⟨?_, by simp [inError, State.StatusOk, filled, State.raiseFault, Fault.code, State.setTurns, State.reset]⟩
  exact filled_canonical (v := 5) (by decide)

theorem test_witness_HardAndSoftResetAgree :
    (0x80000000#32).getLsbD 31 = true ∧ (busyOn 1 [.hardReset]).env.turns = [.hardReset] ∧
      (busyOn 1 [.port (.write 0x0000C 4 0x80000000)]).env.turns = [.port (.write 0x0000C 4 0x80000000)] :=
  ⟨by decide, rfl, rfl⟩

theorem test_witness_StepKeepsBlockInvariant :
    ∃ s t : State, s.Inv ∧ step s = .next t ∧ s ≠ t :=
  ⟨busyOn 0 [], (busyOn 0 []).raiseFault .illegalCmd, busyOn_inv _ _, rfl,
    fun h => Bool.noConfusion ((congrArg State.busy h).symm.trans rfl : false = true)⟩

theorem test_witness_EncodedCommandDecodesBack :
    (Instr.sampleb 15 65535).wellFormed = true ∧ (Instr.decode 15).wellFormed = true := by decide

theorem test_witness_DecodedWordEncodesBack : decode 0xFFFF00F4 = some (.sampleb 15 65535) := by decide

/-- Both sides of an equivalence met, and both missed. -/
theorem test_witness_LegalWordsMatchTheOpcodeTable :
    (0x80000054#32 &&& 0x0000FF0F) = 0x00000004 ∧ bits 0x80000054 7 4 = (5 : RegId) ∧ bits 0x80000054 31 16 = 32768 ∧
      decode 0x80000054 = some (.sampleb 5 32768) ∧
      (0x00010001#32 &&& 0xFFFF000F) ≠ 0x00000001 ∧ decode 0x00010001 = none := by decide

theorem test_witness_StepRunsThePendingCommand :
    (busyOn 0x2131 []).busy = true ∧ decode (busyOn 0x2131 []).cmd = some (.add 3 1 2) ∧ (busyOn 0x2131 []).env.turns = [] ∧
      (busyOn 0x2131 [.unit]).env.turns = [.unit] := ⟨rfl, by decide, rfl, rfl⟩

theorem test_witness_UndecodableWordRaisesIllegalCmd :
    (busyOn 0x19 []).busy = true ∧ decode (busyOn 0x19 []).cmd = none ∧ (busyOn 0x19 []).env.turns = [] ∧
      (busyOn 0x19 [.unit]).env.turns = [.unit] := ⟨rfl, by decide, rfl, rfl⟩

/-- One witness for each fault, and the interrupt enable. -/
theorem test_witness_FaultEntryChangesOnlyStatus :
    decode (busyOn 0x19 []).cmd = none ∧
      decode (busyOn 0x77 []).cmd = some (.chash 7) ∧ weightOfFirst (busyOn 0x77 []).digest.toNat 324 < 16 ∧
      1023 < 1024 ∧ (filled 5).busy = false ∧ (filled 5).err = false ∧ 33550337 ≤ (0xFFFFFFFF#32).toNat ∧
      ((filled 5).setCtrl 2).ieErr = true :=
  ⟨by decide, by decide, by decide +kernel, by decide, rfl, rfl, by decide, by decide⟩

theorem test_witness_OnlyExecuteOrResetEndsAPendingCommand :
    ∃ (s t : State) (h : Turn), s.busy = true ∧ s.env.turns = [h] ∧ h ≠ .unit ∧ h.resets = false ∧ step s = .next t :=
  ⟨busyOn 1 [hostWrite 0x0000C 3], _, hostWrite 0x0000C 3, rfl, rfl, by decide, by decide, rfl⟩

/-- One witness for each branch: a soft reset, and a refused data write. -/
theorem test_witness_ErrorStateEndsOnlyByReset :
    (∃ s t : State, s.Inv ∧ s.err = true ∧ step s = .next t ∧ s.env.turns.head?.any Turn.resets = true) ∧
      ∃ s t : State, s.Inv ∧ s.err = true ∧ step s = .next t ∧ s.env.turns.head?.any Turn.resets = false :=
  ⟨⟨inError [hostWrite 0x0000C 0x80000000], _, inError_inv _, rfl, rfl, by decide⟩,
    inError [hostWrite 0x17000 1], _, inError_inv _, rfl, rfl, by decide⟩

theorem test_witness_CommandsWriteOneDestination :
    (∃ t, exec (.add 15 1 2) (filled 5) = .next t) ∧ (Instr.add 15 1 2).destReg ≠ some 0 ∧
      ∀ rs1, Instr.add 15 1 2 ≠ .decode rs1 := ⟨exec_answers _ _, by decide, by decide⟩

theorem chash_of_zero_digest : exec (.chash 7) (filled 5) = .next ((filled 5).raiseFault .chashExhausted) := by
  have h : ringChallenge pSetla (filled 5).digest.toNat = none := by
    have h0 : (filled 5).digest.toNat = 0 := (BitVec.toNat_ofNat 0 512).trans (Nat.zero_mod _)
    rw [h0, ringChallenge]
    unfold expandDigits
    simp
  simp only [exec, execChash, h]

/-- One witness for each way a command can end. -/
theorem test_witness_CommandsCompleteFaultOrWait :
    (∃ t, exec (.add 3 1 2) (filled 5) = .next t ∧ t.done = true) ∧
      (∃ t, exec (.chash 7) (filled 5) = .next t ∧ t.err = true) ∧
      ∃ t, exec (.sampleu 0) ((filled 5).setEntropyReady false) = .next t ∧ t.done = false :=
  ⟨⟨_, rfl, rfl⟩, ⟨(filled 5).raiseFault .chashExhausted, chash_of_zero_digest, rfl⟩,
    (filled 5).setEntropyReady false, by
      simp only [exec, execSampleu]; exact finishSample_stalled _ _ _ rfl, rfl⟩

theorem test_witness_OnlySamplingDependsOnTheOracle :
    (Instr.mul 3 1 2).samples = false ∧ ∃ t, exec (.mul 3 1 2) (filled 5) = .next t := ⟨rfl, exec_answers _ _⟩

/-- Both ends of the range of the immediate. -/
theorem test_witness_SamplebWritesResiduesOfBoundedDraws :
    0 < 65536 ∧ 65535 < 65536 ∧ (filled 5).env.entropyReady = true := ⟨by decide, by decide, rfl⟩

theorem test_witness_SampleuWritesDrawsBelowQ : (filled 5).env.entropyReady = true := rfl

theorem test_witness_OracleAnswersFillTheInterval :
    (-65535 : Int) ≤ 65535 ∧ (0 : Int) ≤ 0 ∧ answerIn 0 (-65535) 65535 = -65535 ∧ answerIn 131070 (-65535) 65535 = 65535 := by
  decide

theorem test_witness_SilentOracleLeavesTheCommandPending :
    (Instr.sampleb 2 1).samples = true ∧ ((filled 5).setEntropyReady false).env.entropyReady = false ∧
      ((busyOn 0x00010024 []).setEntropyReady false).Stuck ∧ ((busyOn 0x00010024 [.unit]).setEntropyReady false).Stuck :=
  ⟨rfl, rfl, ⟨rfl, rfl, .sampleb 2 1, by decide, rfl⟩, rfl, rfl, .sampleb 2 1, by decide, rfl⟩

/-- The state whose DIGEST is 2^512 - 1. -/
def fullDigest : State := { filled 5 with digest := BitVec.allOnes 512 }

/-- The smallest digest that is accepted, 3^16 - 1, and the largest of all. -/
theorem test_witness_ChashWritesDigitsUntilTheWeight :
    16 ≤ weightOfFirst ((filled 5).setDigestWord 0 0x0290D740).digest.toNat 324 ∧
      16 ≤ weightOfFirst fullDigest.digest.toNat 324 := by decide +kernel

/-- The other clause: weight 15. -/
theorem test_witness_ChashWritesDigitsUntilTheWeight_exhausted :
    weightOfFirst ((filled 5).setDigestWord 0 14348906).digest.toNat 324 = 15 := by decide +kernel

theorem test_witness_ChashFaultsExactlyOnLightDigests :
    (filled 5).err = false ∧ exec (.chash 7) (filled 5) = .next ((filled 5).raiseFault .chashExhausted) ∧
      weightOfFirst (filled 5).digest.toNat 324 = 0 := ⟨rfl, chash_of_zero_digest, by decide +kernel⟩

theorem test_witness_CompletedChallengeIsSparse :
    ∃ t, exec (.chash 7) fullDigest = .next t ∧ t.err = false ∧ t.slot 7 22 = 1 ∧ t.slot 7 23 = 0 := by
  have h : (match exec (.chash 7) fullDigest with
      | .next t => t.err == false && t.slot 7 22 == 1 && t.slot 7 23 == 0
      | _ => false) = true := by decide +kernel
  revert h
  cases exec (.chash 7) fullDigest with
  | next t => intro h; exact ⟨t, rfl, by simpa [and_assoc] using h⟩
  | fault f => intro h; cases h
  | refused r => intro h; cases h

theorem test_witness_CompressRoundsToNearestBucket :
    pSetla.WellFormed ∧ 33550336 < pSetla.q ∧ pToy8.WellFormed ∧ 4 < pToy8.q ∧ 0 ≤ 4 := by decide

/-- The edges of the margin on both sides, and the clause on the upper edge. -/
theorem test_witness_CompressAgreesWithinTheMargin :
    1 * 32768 < 33550337 ∧ (0 : Int) ≤ 1 * 32768 + -16384 ∧ (1 : Int) * 32768 + 16385 < 33550337 ∧
      compressLane pSetla (1 * 32768 - 16383) = 1 ∧ compressLane pSetla (1 * 32768 - 16384) = 0 ∧
      1023 * 32768 + 16384 + 1 < 33550337 := by decide

/-- A bit 1 kept, a bit 1 lost, a bit 0 kept and a bit 0 lost at the edges of the margins, in lanes 0 and 255 (V7). -/
theorem test_witness_DecodeNoiseMarginsAreExact :
    (filled 25162751).slot 1 255 = (((true.toNat * 16775168 : Nat) + 8387583 : Int) % 33550337).toNat ∧
      (filled 8387584).slot 1 0 = (((true.toNat * 16775168 : Nat) + (-8387584) : Int) % 33550337).toNat ∧
      (filled 25162752).slot 1 0 = (((false.toNat * 16775168 : Nat) + (-8387585) : Int) % 33550337).toNat ∧
      (filled 8387585).slot 1 255 = (((false.toNat * 16775168 : Nat) + 8387585 : Int) % 33550337).toNat := by
  refine ⟨?_, ?_, ?_, ?_⟩ <;> rw [filled_slot _ _ (by decide)] <;> decide

theorem test_witness_DecodeTestOnBalancedRepresentative :
    8387585 < 33550337 ∧ bal pSetla 8387585 = 8387585 ∧ bal pSetla 25162751 = -8387586 := by decide

theorem test_witness_MulFoldsThePolynomialProduct : pToy8.WellFormed ∧ 7 < pToy8.n := by decide

/-- Canonical ring elements of the toy configuration. -/
def toyA : RingElem pToy8 := toy [3, 250, 17, 0, 99, 1, 200, 45]

theorem toyA_canonical (i : Nat) : lane toyA i < pToy8.q := by
  rcases Nat.lt_or_ge i 8 with h | h
  · revert i; decide
  · rw [lane_of_le _ h]; decide

theorem test_witness_AdditionAndSubtractionLaws : pToy8.WellFormed ∧ ∀ i, lane toyA i < pToy8.q :=
  ⟨by decide, toyA_canonical⟩

theorem test_witness_MultiplicationLaws : pToy8.WellFormed ∧ ∀ i, lane toyA i < pToy8.q :=
  ⟨by decide, toyA_canonical⟩

theorem test_witness_MultiplicationIsAssociative : pToy8.WellFormed ∧ pSetla.WellFormed := by decide

theorem test_witness_MultiplyingByXShiftsNegacyclically :
    pToy8.WellFormed ∧ 2 ≤ pToy8.n ∧ ∀ i, lane toyA i < pToy8.q := ⟨by decide, by decide, toyA_canonical⟩

/-- A mask within B = 8 as first factor and a challenge of weight 2 as second (P2). -/
theorem test_witness_ProductBoundsOnBalancedLanes :
    let a := toy [8, 249, 5, 0, 1, 256, 2, 3]
    let b := toy [1, 256]
    pToy8.WellFormed ∧ (∀ i < 8, lane a i < pToy8.q) ∧ (∀ i < 8, lane b i < pToy8.q) ∧
      (∀ i < pToy8.n, (bal pToy8 (lane a i)).natAbs ≤ 8) ∧ (∀ i < pToy8.n, (bal pToy8 (lane b i)).natAbs ≤ 1) ∧
      pToy8.n * 8 * 1 ≤ (pToy8.q - 1) / 2 ∧ ((List.range pToy8.n).filter (fun i => lane b i != 0)).length ≤ 2 := by decide

theorem test_witness_ReceiverRecomputesTheCommitment : pToy8.WellFormed ∧ pSetla.WellFormed := by decide

/-- A canonical toy ring element written out. -/
def toyV (l : List Nat) : RingValue pToy8 := .canon (toy l)

/-- Oracle answers written out, held to the interval. -/
def drawsOf (bound : Nat) (l : List Int) : Draws bound :=
  ⟨fun i => max (-(bound : Int)) (min (l.getD i 0) bound), fun i => by omega⟩

/-- The host's functions of P2: a digest taken as 19, the key 0b1011, and a cipher that leaves the text as it is. -/
def toyHost : HostFns pToy8 :=
  { hash512 := fun _ => Vector.replicate 64 0, serialize := fun _ _ m _ _ _ => m, digestToInt := fun _ => 19,
    keyOfCipher := fun k => BitVec.ofBoolListLE k.toList |>.cast (by simp),
    cipherOfKey := fun k => Vector.ofFn fun i => k.getLsb i,
    encrypt := fun m _ => m, decrypt := fun m _ => some m, plainAfterError := fun _ _ => [],
    hostRng := fun _ => #v[true, true, false, true], maxAttempts := 4 }

def toyPublic : PublicElems (RingValue pToy8) :=
  { a1 := toyV [3, 250, 17, 0, 99, 1, 200, 45], a2 := toyV [10, 20, 30, 40, 50, 60, 70, 80] }

def toySender : SecKey (RingValue pToy8) :=
  { s := toyV [1, 256, 0, 0, 1, 0, 256, 1], e1 := toyV [0, 1, 0, 256, 0, 0, 1, 0],
    e2 := toyV [256, 0, 0, 1, 1, 0, 0, 256] }

def toyReceiver : SecKey (RingValue pToy8) :=
  { s := toyV [0, 1, 1, 256, 0, 0, 1, 256], e1 := toyV [1, 0, 0, 0, 256, 1, 0, 0],
    e2 := toyV [0, 0, 1, 256, 0, 1, 0, 0] }

theorem toyHost_lawful : toyHost.Lawful where
  decrypt_encrypt _ _ := rfl
  cipherOfKey_keyOfCipher := by decide
  keyOfCipher_cipherOfKey := by decide
  attempts_pos := by decide

/-- P1: the sender's keys. -/
theorem test_keyGen_toy :
    keyGen toyPublic (drawsOf 1 [1, -1, 0, 0, 1, 0, -1, 1]) (drawsOf 1 [0, 1, 0, -1, 0, 0, 1, 0])
        (drawsOf 1 [-1, 0, 0, 1, 1, 0, 0, -1]) =
      (toySender, { t1 := toyV [230, 230, 180, 96, 44, 254, 169, 112], t2 := toyV [49, 217, 207, 198, 31, 40, 207, 39] }) := by
  decide +kernel

theorem test_witness_KeyGenSecretsAreTernary : pToy8.WellFormed ∧ pSetla.WellFormed := by decide

/-- A ring element of the right length and range, one too short, one out of range. -/
theorem test_witness_MalformedInputsAreRejectedBeforeTheProtocol :
    RawRing.wellFormed pToy8 [0, 1, 2, 3, 4, 5, 6, 256] = true ∧ RawRing.wellFormed pToy8 [0] = false ∧
      RawRing.wellFormed pToy8 [0, 1, 2, 3, 4, 5, 6, 257] = false := by decide

/-- Attempt 2 of P2: its mask is accepted and its noise is within the margin 63. -/
def toyAttempt : Option (Attempt pToy8) :=
  attempt toyHost toyPublic toySender (pubOfSec toyPublic toySender) (pubOfSec toyPublic toyReceiver) [0x68]
    (toyHost.hostRng 0) (drawsOf 8 [-2, -3, 2, -2, 4, 2, -1, 4])

/-- The bundle of P2. -/
theorem test_signcrypt_toy :
    (toyAttempt.map fun t => t.toBundle toyHost (pubOfSec toyPublic toyReceiver) [0x68] (toyHost.hostRng 0)
      (drawsOf 8 [3, -8, 0, 5, -1, 2, 8, -4])) =
      some { z := toyV [0, 252, 4, 254, 4, 1, 0, 5], c := toyV [0, 256, 1],
             x := toyV [86, 163, 147, 231, 84, 46, 252, 28], eps := [0x68] } := by decide +kernel

theorem test_witness_AcceptedAttemptUnsigncryptsToTheMessage :
    toyHost.Lawful ∧ ∃ t, toyAttempt = some t ∧ t.accepted = true ∧
      ∀ i < pToy8.klen, (bal pToy8 (lane (roundTripNoise toySender toyReceiver t.c t.y
        (sampleBounded (drawsOf 8 [3, -8, 0, 5, -1, 2, 8, -4]))).coeffs i)).natAbs ≤ pToy8.half - pToy8.quart := by
  refine ⟨toyHost_lawful, ?_⟩
  have h : (toyAttempt.any fun t => t.accepted && decide (∀ i < pToy8.klen, (bal pToy8 (lane (roundTripNoise toySender
      toyReceiver t.c t.y (sampleBounded (drawsOf 8 [3, -8, 0, 5, -1, 2, 8, -4]))).coeffs i)).natAbs ≤
        pToy8.half - pToy8.quart)) = true := by decide +kernel
  rw [Option.any_eq_true] at h
  obtain ⟨t, ht, hok⟩ := h
  simp only [Bool.and_eq_true, decide_eq_true_eq] at hok
  exact ⟨t, ht, hok⟩

/-- R225: with only a platform reset left, a run that ended in error is over there, and it did not end well. -/
theorem test_error_end_stays_the_end :
    (((inError [.hardReset]).endWithin 5).any fun t => t.err) = true := by decide +kernel

/-- Idle, busy and in error. -/
theorem test_witness_CmdWriteIssuesOrIsRefused :
    (filled 5).busy = false ∧ (filled 5).err = false ∧ (busyOn 1 []).busy = true ∧ (inError []).err = true :=
  ⟨rfl, rfl, rfl, rfl⟩

theorem test_witness_CtrlWriteSetsEnablesOrResets :
    (0x7FFFFFFF#32).getLsbD 31 = false ∧ (0x80000000#32).getLsbD 31 = true := by decide

/-- The last address of the window and the largest canonical residue (V8). -/
theorem test_witness_RingSlotWriteAndRead :
    0x10000 ≤ 0x1FFFC ∧ 0x1FFFC ≤ 0x1FFFF ∧ 0x1FFFC % 4 = 0 ∧ (filled 5).busy = false ∧ (filled 5).err = false ∧
      (33550336#32).toNat < 33550337 := ⟨by decide, by decide, by decide, rfl, rfl, by decide⟩

/-- The values on both sides of the check. -/
theorem test_witness_RingWindowWriteChecksTheRange :
    1023 < 1024 ∧ (filled 5).busy = false ∧ (filled 5).err = false ∧ (33550336#32).toNat < 33550337 ∧
      33550337 ≤ (33550337#32).toNat := ⟨by decide, rfl, rfl, by decide, by decide⟩

theorem test_witness_KeyWordWriteAndRead : 7 < 8 ∧ (filled 5).busy = false ∧ (filled 5).err = false :=
  ⟨by decide, rfl, rfl⟩

theorem test_witness_DigestWordWriteAndRead : 15 < 16 ∧ (filled 5).busy = false ∧ (filled 5).err = false :=
  ⟨by decide, rfl, rfl⟩

theorem test_witness_DigestIsTheSumOfItsWords : fullDigest.busy = false := rfl

/-- The first and the last byte of each range. -/
theorem test_witness_BusyUnitRefusesDataAndCommands :
    (busyOn 1 []).busy = true ∧ ∀ a ∈ [0x00040, 0x0005F, 0x00080, 0x000BF, 0x10000, 0x1FFFF],
      (0x00040 ≤ a ∧ a < 0x00060) ∨ (0x00080 ≤ a ∧ a < 0x000C0) ∨ (0x10000 ≤ a ∧ a ≤ 0x1FFFF) := ⟨rfl, by decide⟩

theorem test_witness_ErrorStateRefusesDataWritesAndCommands :
    (inError []).err = true ∧ ∀ a ∈ [0x00040, 0x0005F, 0x00080, 0x000BF, 0x10000, 0x1FFFF],
      (0x00040 ≤ a ∧ a < 0x00060) ∨ (0x00080 ≤ a ∧ a < 0x000C0) ∨ (0x10000 ≤ a ∧ a ≤ 0x1FFFF) := ⟨rfl, by decide⟩

/-- A refused and an accepted transaction. -/
theorem test_witness_RefusedTransactionsAreThoseListed :
    ((filled 5).access (.read 0x00028 4)).2 = .buserr ∧ ((filled 5).access (.read 0x00024 4)).2 = .data 256 :=
  ⟨rfl, rfl⟩

theorem test_witness_HostTurnPerformsOneTransaction :
    (busyOn 1 [hostRead 0x00008]).env.turns = [.port (.read 0x00008 4)] := rfl

end Sys2Proof.Tests
end

section
/-! PROOFS. The constant registers, CTRL and the interrupt output (R29, R34 to R37). -/

namespace Sys2Proof.Machine

/-! ### ID and PARAM_* -/

/-- The registers of R29 and R36, in the order of their addresses. -/
def constantRegs : List PortReg :=
  [.id, .param .n, .param .q, .param .omega, .param .d, .param .b, .param .klen]

theorem readOnly_of_mem_constantRegs : ∀ r ∈ constantRegs, r.readOnly = true := by decide

/-- R73, step 3: it comes before every check that looks at the state of the unit. -/
theorem access_write_readOnly (s : State) (r : PortReg) (v : Word) (hro : r.readOnly = true) :
    s.access (.write r.addr 4 v) = (s, .buserr) := by
  have hj : s.judge (.write r.addr 4 v) = .buserr := by
    rw [judge_of_addr s _ r rfl rfl, State.gate, if_pos ⟨rfl, hro⟩]
  simp only [State.access, hj]

theorem access_read_id (s : State) : s.access (.read 0x00004 4) = (s, .data idWord) :=
  access_read s .id nofun

theorem access_read_param (s : State) (r : ParamReg) :
    s.access (.read (PortReg.param r).addr 4) = (s, .data r.value) :=
  access_read s (.param r) nofun

/-- Settles O46: the refusal is one fact about read-only registers, used at the seven addresses. -/
theorem constantRegistersReadAndRefuseWrites : Obligations.ConstantRegistersReadAndRefuseWrites := by
  intro s v
  have refused : ∀ a ∈ constantRegs.map PortReg.addr, s.access (.write a 4 v) = (s, .buserr) :=
    List.forall_mem_map.mpr fun r hr =>
      access_write_readOnly s r v (readOnly_of_mem_constantRegs r hr)
  exact ⟨⟨access_read_id s, access_read_param s .n, access_read_param s .q,
    access_read_param s .omega, access_read_param s .d, access_read_param s .b,
    access_read_param s .klen⟩, refused⟩

/-! ### CTRL -/

/-- Every bit of CTRL (R34); bit 31, SRST, reads zero (R35). -/
theorem getLsbD_ctrlWord (s : State) (j : Nat) :
    s.ctrlWord.getLsbD j = (decide (j = 0) && s.ieDone || decide (j = 1) && s.ieErr) := by
  match j with
  | 0 | 1 => simp [State.ctrlWord]
  | j + 2 => simp [State.ctrlWord]

theorem getLsbD_ctrlWord_zero (s : State) : s.ctrlWord.getLsbD 0 = s.ieDone := by
  rw [getLsbD_ctrlWord]; simp

theorem getLsbD_ctrlWord_one (s : State) : s.ctrlWord.getLsbD 1 = s.ieErr := by
  rw [getLsbD_ctrlWord]; simp

theorem getLsbD_ctrlWord_of_two_le (s : State) {j : Nat} (hj : 2 ≤ j) :
    s.ctrlWord.getLsbD j = false := by
  have h0 : j ≠ 0 := by omega
  have h1 : j ≠ 1 := by omega
  simp [getLsbD_ctrlWord, h0, h1]

theorem ctrlWord_reset : State.reset.ctrlWord = 0 := rfl

theorem access_read_ctrl (s : State) : s.access (.read 0x0000C 4) = (s, .data s.ctrlWord) :=
  access_read s .ctrl nofun

/-- CTRL is written in every state of the unit (R34, R35). -/
theorem access_write_ctrl (s : State) (v : Word) :
    s.access (.write 0x0000C 4 v) = (if v.getLsbD 31 then s.resetBlock else s.setCtrl v, .ok) :=
  access_write s .ctrl v rfl nofun nofun nofun

/-- Settles O49, from the bits of CTRL and the two branches of its write. -/
theorem ctrlWriteSetsEnablesOrResets : Obligations.CtrlWriteSetsEnablesOrResets := by
  intro s v
  refine ⟨⟨s.ctrlWord, access_read_ctrl s, getLsbD_ctrlWord_zero s, getLsbD_ctrlWord_one s,
    fun j => getLsbD_ctrlWord_of_two_le s⟩, ?enables, ?reset, ctrlWord_reset⟩
  case enables =>
    intro h31
    simp only [access_write_ctrl, h31, Bool.false_eq_true, if_false, State.setCtrl]
  case reset =>
    intro h31
    simp only [access_write_ctrl, h31, if_true, State.resetBlock]

/-! ### STATUS and the interrupt output -/

/-- Every bit of STATUS: the four fields of R30, and zero elsewhere (R38). -/
theorem getLsbD_statusWord (s : State) (j : Nat) :
    s.statusWord.getLsbD j =
      (decide (j = 0) && s.busy || decide (j = 1) && s.done || decide (j = 2) && s.err ||
        decide (8 ≤ j) && s.errcode.getLsbD (j - 8)) := by
  match j with
  | 0 | 1 | 2 | 3 | 4 | 5 | 6 | 7 => simp [State.statusWord]
  | j + 8 =>
    by_cases hj : j + 8 < 32
    · simp [State.statusWord, hj]
    · have hword : s.statusWord.getLsbD (j + 8) = false := BitVec.getLsbD_of_ge _ _ (by omega)
      have hcode : s.errcode.getLsbD j = false := BitVec.getLsbD_of_ge _ _ (by omega)
      simp [hword, hcode]

theorem getLsbD_statusWord_one (s : State) : s.statusWord.getLsbD 1 = s.done := by
  rw [getLsbD_statusWord]; simp

theorem getLsbD_statusWord_two (s : State) : s.statusWord.getLsbD 2 = s.err := by
  rw [getLsbD_statusWord]; simp

theorem irq_reset : State.reset.irq = false := rfl

/-- R37, with the bits of STATUS and CTRL that the host can read. -/
theorem irq_eq_statusWord_ctrlWord (s : State) :
    s.irq = (s.statusWord.getLsbD 1 && s.ctrlWord.getLsbD 0 ||
      s.statusWord.getLsbD 2 && s.ctrlWord.getLsbD 1) := by
  rw [getLsbD_statusWord_one, getLsbD_statusWord_two, getLsbD_ctrlWord_zero, getLsbD_ctrlWord_one,
    State.irq]

/-- Settles O50: the bits that STATUS and CTRL read are the fields `irq` is computed from. -/
theorem interruptIsLevelOfStatusAndCtrl : Obligations.InterruptIsLevelOfStatusAndCtrl := by
  refine ⟨irq_reset, fun s => ?_⟩
  simp only [irq_eq_statusWord_ctrlWord, Bool.or_eq_true, Bool.and_eq_true]

end Sys2Proof.Machine
end

section
/-! PROOFS. The ring window of the port (R57, R58). -/

namespace Sys2Proof.Machine

/-- R57: every aligned address of the window is a slot's address, k is its bits 15:12 and i its bits
11:2. -/
theorem exists_slot_addr {a : Nat} (hlo : 0x10000 ≤ a) (hhi : a ≤ 0x1FFFF) (h4 : a % 4 = 0) :
    ∃ (k : RegId) (i : Fin 1024), a = (PortReg.slot k i).addr ∧
      (k : Nat) = a / 2 ^ 12 % 16 ∧ (i : Nat) = a / 4 % 1024 :=
  ⟨_, _, (addr_of_portReg (portReg_window h4 hlo hhi)).symm, rfl, rfl⟩

/-- A slot reads zero-extended (R53, R57). -/
theorem readReg_slot (s : State) (k : RegId) (i : Fin 1024) :
    s.readReg (.slot k i) = BitVec.ofNat 32 (s.slot k i) := by
  rw [slot_eq_toNat s k i.isLt, BitVec.ofNat_toNat]
  rfl

/-- A canonical residue fits the 25 bits of a slot (R21), so the slot takes it whole. -/
theorem slot_setSlot_of_lt_q (s : State) (k : RegId) (i : Fin 1024) {v : Word}
    (hv : v.toNat < pSetla.q) : (s.setSlot k i (v.setWidth 25)).slot k i = v.toNat := by
  rw [slot_setSlot_self, BitVec.toNat_setWidth, Nat.mod_eq_of_lt (lt_width_of_lt_q hv)]

theorem access_read_slot (s : State) (k : RegId) (i : Fin 1024) (hb : s.busy = false) :
    s.access (.read (PortReg.slot k i).addr 4) = (s, .data (BitVec.ofNat 32 (s.slot k i))) := by
  rw [access_read s (.slot k i) fun _ => hb, readReg_slot]

/-- R58: a canonical residue passes the range check. -/
theorem access_write_slot_of_lt {s : State} (k : RegId) (i : Fin 1024) {v : Word}
    (hb : s.busy = false) (he : s.err = false) (hv : v.toNat < pSetla.q) :
    s.access (.write (PortReg.slot k i).addr 4 v) = (s.setSlot k i (v.setWidth 25), .ok) :=
  access_write s (.slot k i) v rfl nofun (fun _ => ⟨hb, he⟩) fun _ => hv

/-- R58: anything else fails it, at step 7 of R73, after the checks of an idle unit have passed. -/
theorem access_write_slot_of_ge {s : State} (k : RegId) (i : Fin 1024) {v : Word}
    (hb : s.busy = false) (he : s.err = false) (hv : pSetla.q ≤ v.toNat) :
    s.access (.write (PortReg.slot k i).addr 4 v) = (s.raiseFault .coeffRange, .ok) := by
  have hj : s.judge (.write (PortReg.slot k i).addr 4 v) = .coeffRange := by
    rw [judge_of_addr s _ (.slot k i) rfl rfl]
    simp [State.gate, PortReg.readOnly, PortReg.isData, PortReg.isSlot, PortReq.isWrite,
      PortReq.outOfRange, hb, he, hv]
  simp only [State.access, hj]

/-- Outside a command the entry of a fault changes the error bits only (R183). -/
theorem raiseFault_of_not_busy {s : State} (f : Fault) (hb : s.busy = false) :
    s.raiseFault f = { s with err := true, errcode := f.code } := by
  rw [State.raiseFault, ← hb]

/-- Settles O51: the address gives the slot, and the access of that slot is known. -/
theorem ringSlotWriteAndRead : Obligations.RingSlotWriteAndRead := by
  intro s a v hlo hhi h4 hb
  obtain ⟨k, i, rfl, hk, hi⟩ := exists_slot_addr hlo hhi h4
  refine ⟨k, i, rfl, i.isLt, hk, hi, access_read_slot s k i hb, fun he hv => ?write⟩
  case write =>
    exact ⟨_, access_write_slot_of_lt k i hb he hv, slot_setSlot_of_lt_q s k i hv,
      fun k' i' hne => slot_setSlot_ne s k k' i i' _ hne, rfl⟩

/-- Settles O52, by the two sides of the range check. -/
theorem ringWindowWriteChecksTheRange : Obligations.RingWindowWriteChecksTheRange := by
  intro s k i v hi hb he
  refine ⟨fun hv => ?inRange, fun hv => ?outOfRange⟩
  case inRange =>
    exact ⟨_, access_write_slot_of_lt k ⟨i, hi⟩ hb he hv, slot_setSlot_of_lt_q s k ⟨i, hi⟩ hv, he⟩
  case outOfRange =>
    have raised := access_write_slot_of_ge k ⟨i, hi⟩ hb he hv
    rw [raiseFault_of_not_busy .coeffRange hb] at raised
    exact raised

end Sys2Proof.Machine
end

section
/-! PROOFS. The opcode table (R86): a word is a command exactly when its fields are the command's
(R81, R88), and a row's mask keeps the opcode and the fields that its format does not use. -/

namespace Sys2Proof

/-! ### The fields of a word -/

theorem bits_lt (w : Word) (hi lo : Nat) : bits w hi lo < 2 ^ (hi + 1 - lo) :=
  Nat.mod_lt _ (Nat.two_pow_pos _)

theorem splitWord_inRange (w : Word) : (splitWord w).inRange = true := by
  simp only [CmdFields.inRange, Bool.and_eq_true, decide_eq_true_eq]
  exact ⟨⟨⟨⟨bits_lt w 3 0, bits_lt w 7 4⟩, bits_lt w 11 8⟩, bits_lt w 15 12⟩, bits_lt w 31 16⟩

/-- The five fields cover all 32 bits (R81). -/
theorem joinFields_splitWord (w : Word) : joinFields (splitWord w) = w := by
  apply BitVec.eq_of_toNat_eq
  simp only [joinFields, splitWord, bits, BitVec.toNat_ofNat]
  omega

theorem splitWord_inj {v w : Word} : splitWord v = splitWord w ↔ v = w :=
  (Function.LeftInverse.injective joinFields_splitWord).eq_iff

theorem bits_and (v w : Word) (hi lo : Nat) :
    bits (v &&& w) hi lo = bits v hi lo &&& bits w hi lo := by
  simp only [bits, BitVec.toNat_and, Nat.and_div_two_pow, Nat.and_mod_two_pow]

/-- The bitwise `and`, field by field. -/
def CmdFields.and (f g : CmdFields) : CmdFields :=
  { op := f.op &&& g.op, rd := f.rd &&& g.rd, rs1 := f.rs1 &&& g.rs1, rs2 := f.rs2 &&& g.rs2,
    imm16 := f.imm16 &&& g.imm16 }

theorem splitWord_and (v w : Word) : splitWord (v &&& w) = (splitWord v).and (splitWord w) := by
  simp only [splitWord, CmdFields.and, bits_and]

/-! ### What a legal word decodes to -/

theorem regOf_val (k : RegId) : regOf k = k := Fin.ofNat_val_eq_self k

theorem val_regOf {k : Nat} (h : k < 16) : (regOf k : Nat) = k := Nat.mod_eq_of_lt h

theorem decodeFields_fields (i : Instr) : decodeFields i.fields = some i := by
  cases i <;> simp [decodeFields, Instr.fields, regOf_val]

/-- The command that fields in range decode to has those fields (R88). -/
theorem fields_of_decodeFields {f : CmdFields} {i : Instr} (hr : f.inRange = true)
    (h : decodeFields f = some i) : f = i.fields := by
  obtain ⟨op, rd, rs1, rs2, imm⟩ := f
  simp only [CmdFields.inRange, Bool.and_eq_true, decide_eq_true_eq] at hr
  obtain ⟨⟨⟨⟨-, hrd⟩, hrs1⟩, hrs2⟩, -⟩ := hr
  simp only [decodeFields] at h
  split at h <;> simp only [Option.ite_none_right_eq_some, Option.some.injEq, reduceCtorEq] at h
  all_goals
    obtain ⟨unused, rfl⟩ := h
    simp [Instr.fields, val_regOf, *]

theorem decode_eq_some_iff {w : Word} {i : Instr} : decode w = some i ↔ splitWord w = i.fields :=
  ⟨fields_of_decodeFields (splitWord_inRange w), fun h => by rw [decode, h, decodeFields_fields]⟩

/-! ### The rows of the opcode table -/

/-- The fields of a row's mask (R86): ones in the opcode and in every field that the format does not
use (R82), zero in the operands. -/
def Format.maskFields : Format → CmdFields
  | .F3 => { op := 15, rd := 0, rs1 := 0, rs2 := 0, imm16 := 65535 }
  | .F2 => { op := 15, rd := 0, rs1 := 0, rs2 := 15, imm16 := 65535 }
  | .FI => { op := 15, rd := 0, rs1 := 15, rs2 := 15, imm16 := 0 }
  | .FD => { op := 15, rd := 0, rs1 := 15, rs2 := 15, imm16 := 65535 }
  | .FS => { op := 15, rd := 15, rs1 := 0, rs2 := 15, imm16 := 65535 }

theorem splitWord_mask (i : Instr) : splitWord i.mask = i.format.maskFields := by
  cases i <;> simp [Instr.mask, Instr.format, Format.maskFields, splitWord, bits]

theorem splitWord_matchWord (i : Instr) :
    splitWord i.matchWord = { op := i.opcode, rd := 0, rs1 := 0, rs2 := 0, imm16 := 0 } := by
  cases i <;> simp [Instr.matchWord, Instr.opcode, splitWord, bits]

/-- What is left of fields under the mask of a format is the bare opcode exactly when the unused
fields are zero (R87). -/
theorem and_maskFields_eq_iff {f : CmdFields} (hr : f.inRange = true) (fmt : Format) (o : Nat) :
    f.and fmt.maskFields = { op := o, rd := 0, rs1 := 0, rs2 := 0, imm16 := 0 } ↔
      f.op = o ∧ f.unusedZero fmt = true := by
  simp only [CmdFields.inRange, Bool.and_eq_true, decide_eq_true_eq] at hr
  obtain ⟨⟨⟨⟨hop, hrd⟩, hrs1⟩, hrs2⟩, himm⟩ := hr
  have keptOp := Nat.and_two_pow_sub_one_of_lt_two_pow (n := 4) hop
  have keptRd := Nat.and_two_pow_sub_one_of_lt_two_pow (n := 4) hrd
  have keptRs1 := Nat.and_two_pow_sub_one_of_lt_two_pow (n := 4) hrs1
  have keptRs2 := Nat.and_two_pow_sub_one_of_lt_two_pow (n := 4) hrs2
  have keptImm := Nat.and_two_pow_sub_one_of_lt_two_pow (n := 16) himm
  cases fmt <;>
    simp_all [CmdFields.and, Format.maskFields, CmdFields.unusedZero, and_assoc]

/-- A word agrees with a row's mask and match value exactly when it has the row's opcode and zero in
every field the row's format does not use (R86, R87). -/
theorem and_mask_eq_matchWord_iff (w : Word) (i : Instr) :
    w &&& i.mask = i.matchWord ↔
      (splitWord w).op = i.opcode ∧ (splitWord w).unusedZero i.format = true := by
  rw [← splitWord_inj, splitWord_and, splitWord_mask, splitWord_matchWord,
    and_maskFields_eq_iff (splitWord_inRange w)]

/-- The operands of a command stand in their fields: the letters of the row's pattern (R82, R86). -/
def Instr.operandsIn (f : CmdFields) : Instr → Prop
  | .add rd rs1 rs2 | .sub rd rs1 rs2 | .mul rd rs1 rs2 => f.rd = rd ∧ f.rs1 = rs1 ∧ f.rs2 = rs2
  | .sampleb rd imm => f.rd = rd ∧ f.imm16 = imm
  | .sampleu rd | .chash rd | .encode rd => f.rd = rd
  | .compress rd rs1 => f.rd = rd ∧ f.rs1 = rs1
  | .decode rs1 => f.rs1 = rs1

/-- Opcode, unused fields and operands are all the fields there are. -/
theorem eq_fields_iff (f : CmdFields) (i : Instr) :
    f = i.fields ↔ (f.op = i.opcode ∧ f.unusedZero i.format = true) ∧ i.operandsIn f := by
  obtain ⟨op, rd, rs1, rs2, imm⟩ := f
  cases i <;>
    simp only [Instr.fields, Instr.opcode, Instr.format, Instr.operandsIn, CmdFields.unusedZero,
      CmdFields.mk.injEq, Bool.and_eq_true, beq_iff_eq] <;>
    tauto

/-- A word is a row's command with these operands exactly when it matches the row and holds them. -/
theorem decode_eq_some_iff_row (w : Word) (i : Instr) :
    decode w = some i ↔ w &&& i.mask = i.matchWord ∧ i.operandsIn (splitWord w) := by
  rw [decode_eq_some_iff, eq_fields_iff, and_mask_eq_matchWord_iff]

/-- A word that matches a row decodes, whatever its operand fields hold: every register index is
legal (R83). -/
theorem decode_ne_none_of_row {w : Word} {i : Instr} (h : w &&& i.mask = i.matchWord) :
    decode w ≠ none := by
  obtain ⟨hop, hzero⟩ := (and_mask_eq_matchWord_iff w i).mp h
  cases i <;>
    simp_all [decode, decodeFields, Instr.opcode, Instr.format, CmdFields.unusedZero]

theorem decode_eq_none_iff (w : Word) :
    decode w = none ↔ ∀ i : Instr, w &&& i.mask ≠ i.matchWord :=
  ⟨fun hnone _ hrow => decode_ne_none_of_row hrow hnone, fun hno =>
    Option.eq_none_iff_forall_ne_some.mpr fun i hsome =>
      hno i ((decode_eq_some_iff_row w i).mp hsome).1⟩

/-- The masks and match values do not depend on the operands, so nine rows are all there are. -/
theorem forall_and_mask_ne_iff (w : Word) :
    (∀ i : Instr, w &&& i.mask ≠ i.matchWord) ↔
      w &&& 0xFFFF000F ≠ 0x00000001 ∧ w &&& 0xFFFF000F ≠ 0x00000002 ∧ w &&& 0xFFFF000F ≠ 0x00000003 ∧
      w &&& 0x0000FF0F ≠ 0x00000004 ∧ w &&& 0xFFFFFF0F ≠ 0x00000005 ∧ w &&& 0xFFFFF00F ≠ 0x00000006 ∧
      w &&& 0xFFFFFF0F ≠ 0x00000007 ∧ w &&& 0xFFFFFF0F ≠ 0x00000008 ∧ w &&& 0xFFFFF0FF ≠ 0x00000009 := by
  constructor
  case mp =>
    intro h
    exact ⟨h (.add 0 0 0), h (.sub 0 0 0), h (.mul 0 0 0), h (.sampleb 0 0), h (.sampleu 0),
      h (.compress 0 0), h (.chash 0), h (.encode 0), h (.decode 0)⟩
  case mpr =>
    rintro ⟨hadd, hsub, hmul, hsampleb, hsampleu, hcompress, hchash, hencode, hdecode⟩ i
    cases i <;> assumption

/-- Settles O9: each row is `decode_eq_some_iff_row` at that row's command. -/
theorem legalWordsMatchTheOpcodeTable : Obligations.LegalWordsMatchTheOpcodeTable := by
  intro w rd rs1 rs2 imm
  have row := decode_eq_some_iff_row w
  exact ⟨row (.add rd rs1 rs2), row (.sub rd rs1 rs2), row (.mul rd rs1 rs2), row (.sampleb rd imm),
    row (.sampleu rd), row (.compress rd rs1), row (.chash rd), row (.encode rd), row (.decode rs1),
    (decode_eq_none_iff w).trans (forall_and_mask_ne_iff w)⟩

end Sys2Proof
end

section
/-! PROOFS. The commands of `40_ring_arith.md`: ADD, SUB and MUL (R101 to R103). -/

namespace Sys2Proof.Machine

/-! ### What the three commands share -/

/-- The F3 form of R81: no immediate. -/
theorem joinFields_of_imm16_zero (op rd rs1 rs2 : Nat) :
    joinFields { op := op, rd := rd, rs1 := rs1, rs2 := rs2, imm16 := 0 } =
      BitVec.ofNat 32 (rs2 * 2 ^ 12 + rs1 * 2 ^ 8 + rd * 2 ^ 4 + op) := by
  rw [joinFields, Nat.zero_mul, Nat.zero_add]

/-- The end of a command whose lanes are known by a formula with canonical values (R100). -/
theorem finishRing_wrote (s : State) (rd : RegId) {v : RingElem pSetla} {f : Nat → Nat}
    (hlane : ∀ i < 1024, lane v i = f i) (hf : ∀ i < 1024, f i < pSetla.q) :
    ∃ t, s.finishRing rd v = .next t ∧ s.WroteRing t rd f ∧ t.env = s.env := by
  obtain ⟨t, hnext, ⟨hslots, hothers, hrest⟩, henv⟩ := finishRing_spec s rd v fun i hi =>
    hlane i hi ▸ lt_width_of_lt_q (hf i hi)
  exact ⟨t, hnext, ⟨fun i hi => (hslots i hi).trans (hlane i hi), hothers, hrest⟩, henv⟩

/-! ### ADD and SUB -/

/-- Settles O18: a lane of the sum is below q, so its slot takes it whole. -/
theorem addWritesSumModuloQ : Obligations.AddWritesSumModuloQ := by
  intro rd rs1 rs2 s
  obtain ⟨t, hnext, hwrote, henv⟩ := finishRing_wrote s rd
    (fun _ hi => lane_ringAdd pSetla (s.readRing rs1) (s.readRing rs2) hi)
    (fun _ _ => Nat.mod_lt _ q_pos)
  exact ⟨t, hnext, hwrote, henv, joinFields_of_imm16_zero 1 rd rs1 rs2⟩

/-- Settles O19: the residue of the model is the floored remainder of R10. -/
theorem subWritesDifferenceModuloQ : Obligations.SubWritesDifferenceModuloQ := by
  intro rd rs1 rs2 s
  obtain ⟨t, hnext, hwrote, henv⟩ := finishRing_wrote s rd
    (fun _ hi => lane_ringSub pSetla (s.readRing rs1) (s.readRing rs2) hi)
    (fun _ _ => residue_lt pSetla q_pos _)
  exact ⟨t, hnext, hwrote, henv, joinFields_of_imm16_zero 2 rd rs1 rs2⟩

/-! ### MUL -/

theorem signedDot_cons (x : Nat) (a : List Nat) (y : Int) (row : List Int) :
    signedDot (x :: a) (y :: row) = (x : Int) * y + signedDot a row := by
  simp only [signedDot, ← List.sum_eq_foldl, List.zipWith_cons_cons, List.sum_cons]

theorem signedDot_eq_sum {a : List Nat} {row : List Int} (h : row.length = a.length) :
    signedDot a row = ∑ i ∈ Finset.range a.length, (a.getD i 0 : Int) * row.getD i 0 := by
  induction a generalizing row with
  | nil => rfl
  | cons x a ih =>
    obtain ⟨y, row, rfl⟩ := List.exists_cons_of_length_eq_add_one h
    rw [signedDot_cons, ih (Nat.succ.inj h), List.length_cons, Finset.sum_range_succ', add_comm]
    rfl

theorem length_negacyclicRow (b : List Nat) (k : Nat) : (negacyclicRow b k).length = b.length := by
  simp only [negacyclicRow, List.length_append, List.length_map, List.length_reverse,
    List.length_take, List.length_drop]
  omega

/-- An entry of the row: factors k, ..., 0 up to lane k, then the wrapped ones from n - 1 down to
k + 1, each with its minus sign (R103). -/
theorem getD_negacyclicRow {b : List Nat} {k i : Nat} (hk : k < b.length) (hi : i < b.length) :
    (negacyclicRow b k).getD i 0 =
      if i ≤ k then (b.getD (k - i) 0 : Int) else -(b.getD (b.length + k - i) 0 : Int) := by
  have hlen : ((b.take (k + 1)).reverse.map fun (x : Nat) => (x : Int)).length = k + 1 := by
    rw [List.length_map, List.length_reverse, List.length_take_of_le hk]
  rw [negacyclicRow]
  split
  case isTrue h =>
    have hj : k - i < b.length := by omega
    rw [List.getD_append _ _ _ _ (by omega), List.getD_eq_getElem _ _ (by omega)]
    simp [hj, Nat.min_eq_left (Nat.succ_le_of_lt hk)]
  case isFalse h =>
    have hj : b.length + k - i < b.length := by omega
    have hindex : k + 1 + (b.length - (k + 1) - 1 - (i - (k + 1))) = b.length + k - i := by omega
    rw [List.getD_append_right _ _ _ _ (by omega), hlen, List.getD_eq_getElem _ _ (by
      rw [List.length_map, List.length_reverse, List.length_drop]; omega)]
    simp [hj, hindex]

/-- The rule of MUL for any parameters: the dot product of the first factor with the row, as the sum
that R103 writes. -/
theorem lane_ringMul_eq_residue_sum (p : Params) (a b : RingElem p) {k : Nat} (hk : k < p.n) :
    lane (ringMul p a b) k = residue p (∑ i ∈ Finset.range p.n,
      if i ≤ k then (lane a i : Int) * (lane b (k - i) : Int)
      else -((lane a i : Int) * (lane b (p.n + k - i) : Int))) := by
  have ha : a.toList.length = p.n := a.length_toList
  have hb : b.toList.length = p.n := b.length_toList
  rw [lane_ringMul p a b hk, mulLane,
    signedDot_eq_sum (by rw [length_negacyclicRow, ha, hb]), ha]
  congr 1
  refine Finset.sum_congr rfl fun i hi => ?_
  rw [getD_negacyclicRow (hb.symm ▸ hk) (hb.symm ▸ Finset.mem_range.mp hi), hb, mul_ite, mul_neg]
  rfl

/-- Settles O20: the model's rows of factors sum to the convolution. -/
theorem mulWritesNegacyclicConvolution : Obligations.MulWritesNegacyclicConvolution := by
  intro rd rs1 rs2 s
  obtain ⟨t, hnext, hwrote, henv⟩ := finishRing_wrote s rd
    (fun _ hk => lane_ringMul_eq_residue_sum pSetla (s.readRing rs1) (s.readRing rs2) hk)
    (fun _ _ => residue_lt pSetla q_pos _)
  exact ⟨t, hnext, hwrote, henv, joinFields_of_imm16_zero 3 rd rs1 rs2⟩

end Sys2Proof.Machine
end

section
/-! PROOFS. The command of `42_compress.md`: COMPRESS (R121). -/

namespace Sys2Proof.Machine

/-- The F2 form of R81: no second source and no immediate. -/
theorem joinFields_of_rs2_imm16_zero (op rd rs1 : Nat) :
    joinFields { op := op, rd := rd, rs1 := rs1, rs2 := 0, imm16 := 0 } =
      BitVec.ofNat 32 (rs1 * 2 ^ 8 + rd * 2 ^ 4 + op) := by
  rw [joinFields_of_imm16_zero, Nat.zero_mul, Nat.zero_add]

/-- The balanced low bits at d = 15 (R7, R121): the tie 16384 stays positive, so it rounds down. -/
theorem lowBits_pSetla (x : Nat) :
    lowBits pSetla x =
      if x % 32768 ≤ 16384 then ((x % 32768 : Nat) : Int) else ((x % 32768 : Nat) : Int) - 32768 :=
  rfl

theorem compressLane_pSetla (x : Nat) :
    compressLane pSetla x = (((x : Int) - lowBits pSetla x) / 32768).toNat := rfl

/-- A slot holds 25 bits, so COMPRESS of it is a canonical residue, even where the slot's own value
is not (R100, R122). -/
theorem compressLane_slot_lt_q (s : State) (k : RegId) (i : Nat) :
    compressLane pSetla (s.slot k i) < pSetla.q :=
  Nat.lt_of_le_of_lt (compressLane_le (slot_lt_width s k i)) (by decide)

/-- What COMPRESS computes from a register, slot by slot (R121). -/
theorem lane_ringCompress_readRing (s : State) (rs1 : RegId) {i : Nat} (hi : i < 1024) :
    lane (ringCompress pSetla (s.readRing rs1)) i = compressLane pSetla (s.slot rs1 i) := by
  rw [lane_ringCompress pSetla _ hi, lane_readRing]

/-- Settles O25: the lane function at d = 15 is R121's formula, and its values fit a slot. -/
theorem compressWritesRoundedCoefficients : Obligations.CompressWritesRoundedCoefficients := by
  intro rd rs1 s
  obtain ⟨t, hnext, hwrote, henv⟩ := finishRing_wrote s rd
    (fun _ hi => lane_ringCompress_readRing s rs1 hi)
    (fun i _ => compressLane_slot_lt_q s rs1 i)
  simp only [compressLane_pSetla, lowBits_pSetla] at hwrote
  exact ⟨t, hnext, hwrote, henv, joinFields_of_rs2_imm16_zero 6 rd rs1⟩

end Sys2Proof.Machine
end

section
/-! PROOFS. The command of `43_challenge_hash.md`: CHASH (R131, R133). -/

namespace Sys2Proof.Machine

/-! ### Ternary digits and the weight they reach -/

/-- The loop divides its working integer by 3 (R131), which moves every digit down one place. -/
theorem ternaryDigit_succ (v i : Nat) : ternaryDigit v (i + 1) = ternaryDigit (v / 3) i := by
  rw [ternaryDigit, ternaryDigit, Nat.div_div_eq_div_mul, pow_succ']

theorem ternaryDigit_zero (v : Nat) : ternaryDigit v 0 = v % 3 := by
  rw [ternaryDigit, pow_zero, Nat.div_one]

theorem weighsAt_succ (v i : Nat) : weighsAt v (i + 1) = weighsAt (v / 3) i := by
  have hlen : 3 ^ (i + 1) ≤ v ↔ 3 ^ i ≤ v / 3 := by
    rw [Nat.le_div_iff_mul_le three_pos, pow_succ]
  simp only [weighsAt, ternaryDigit_succ, hlen]

/-- A digit of a nonzero integer weighs `|t - 1|`, which is 0 or 1 (R131). -/
theorem toNat_weighsAt_zero {v : Nat} (hv : v ≠ 0) :
    (weighsAt v 0).toNat = digitWeight (v % 3) := by
  have hpos : 1 ≤ v := Nat.one_le_iff_ne_zero.mpr hv
  have hcases : v % 3 = 0 ∨ v % 3 = 1 ∨ v % 3 = 2 := by omega
  rw [weighsAt, ternaryDigit_zero]
  obtain h | h | h := hcases <;> simp [h, hpos, digitWeight]

/-- Leading zeros are no digits (R134). -/
theorem weighsAt_of_lt {v i : Nat} (h : v < 3 ^ i) : weighsAt v i = false := by
  simp [weighsAt, h]

/-- One digit more. -/
theorem weightOfFirst_succ (v m : Nat) :
    weightOfFirst v (m + 1) = weightOfFirst v m + (weighsAt v m).toNat := by
  rw [weightOfFirst, List.range_succ, List.filter_append, List.length_append, ← weightOfFirst]
  cases h : weighsAt v m <;> simp [h]

/-- The lowest digit first, as the loop takes them (R131). -/
theorem weightOfFirst_succ_of_ne_zero {v : Nat} (hv : v ≠ 0) (m : Nat) :
    weightOfFirst v (m + 1) = digitWeight (v % 3) + weightOfFirst (v / 3) m := by
  induction m with
  | zero => rw [weightOfFirst_succ, toNat_weighsAt_zero hv, Nat.add_comm]; rfl
  | succ m ih => rw [weightOfFirst_succ, ih, weighsAt_succ, weightOfFirst_succ, Nat.add_assoc]

/-- Past the highest digit of v there is no more weight (R134). -/
theorem weightOfFirst_of_lt_pow {v k m : Nat} (hv : v < 3 ^ k) (hm : k ≤ m) :
    weightOfFirst v m = weightOfFirst v k := by
  induction m, hm using Nat.le_induction with
  | base => rfl
  | succ m hm ih =>
    have hlead : v < 3 ^ m := Nat.lt_of_lt_of_le hv (Nat.pow_le_pow_right three_pos hm)
    rw [weightOfFirst_succ, ih, weighsAt_of_lt hlead]; rfl

theorem weightOfFirst_of_eq_zero (m : Nat) : weightOfFirst 0 m = 0 :=
  weightOfFirst_of_lt_pow (k := 0) Nat.one_pos (Nat.zero_le m)

/-- A digit adds at most 1, so no weight is jumped over: a digit m reaches it. -/
theorem exists_digit_reaching {v k n : Nat} (hn : k + 1 ≤ weightOfFirst v n) :
    ∃ m < n, weightOfFirst v m = k ∧ weightOfFirst v (m + 1) = k + 1 := by
  induction n with
  | zero => exact absurd hn (Nat.not_succ_le_zero k)
  | succ n ih =>
    by_cases hearlier : k + 1 ≤ weightOfFirst v n
    · obtain ⟨m, hm, hreach⟩ := ih hearlier
      exact ⟨m, Nat.lt_succ_of_lt hm, hreach⟩
    · have hstep := weightOfFirst_succ v n
      have hdigit := Bool.toNat_le (weighsAt v n)
      exact ⟨n, Nat.lt_succ_self n, by omega, by omega⟩

theorem two_pow_le_three_pow (k : Nat) : 2 ^ (19 * k) ≤ 3 ^ (12 * k) := by
  rw [pow_mul, pow_mul]
  exact Nat.pow_le_pow_left (by decide) k

/-- DIGEST has at most 324 = 12 * 27 ternary digits, as its 512 bits are below 19 * 27 (R132). -/
theorem digest_lt_pow (x : BitVec 512) : x.toNat < 3 ^ 324 := by
  have hpow := two_pow_le_three_pow 27
  rw [show 12 * 27 = 324 from rfl] at hpow
  exact (x.toNat_lt_twoPow_of_le (by decide)).trans_le hpow

/-! ### The loop -/

/-- The weight is reached: nothing more is appended (R131). -/
theorem expandDigits_of_omega_le {p : Params} {w : Nat} (hw : p.omega ≤ w) (room v : Nat) :
    expandDigits p room v w = some [] := by
  unfold expandDigits
  exact if_pos hw

/-- No position is left (R133). -/
theorem expandDigits_no_room {p : Params} {w : Nat} (hw : w < p.omega) (v : Nat) :
    expandDigits p 0 v w = none := by
  unfold expandDigits
  rw [if_neg (Nat.not_le_of_lt hw), ite_self]

/-- No digit is left (R133). -/
theorem expandDigits_no_digits {p : Params} {w : Nat} (hw : w < p.omega) (room : Nat) :
    expandDigits p room 0 w = none := by
  unfold expandDigits
  rw [if_neg (Nat.not_le_of_lt hw), if_pos rfl]

/-- One pass of the loop (R131). -/
theorem expandDigits_succ {p : Params} {v w : Nat} (hw : w < p.omega) (hv : v ≠ 0) (room : Nat) :
    expandDigits p (room + 1) v w =
      (expandDigits p room (v / 3) (w + digitWeight (v % 3))).map (digitCoeff p (v % 3) :: ·) := by
  conv_lhs => unfold expandDigits
  rw [if_neg (Nat.not_le_of_lt hw), if_neg hv]

/-- The coefficients of the first m digits, in the order the loop appends them (R131). -/
def digitCoeffs (p : Params) (v m : Nat) : List Nat :=
  (List.range m).map fun i => digitCoeff p (ternaryDigit v i)

theorem digitCoeffs_succ (p : Params) (v m : Nat) :
    digitCoeffs p v (m + 1) = digitCoeff p (v % 3) :: digitCoeffs p (v / 3) m := by
  simp only [digitCoeffs, List.range_succ_eq_map, List.map_cons, List.map_map, ternaryDigit_zero,
    Function.comp_def, Nat.succ_eq_add_one, ternaryDigit_succ]

theorem getD_digitCoeffs (p : Params) (v m i : Nat) :
    (digitCoeffs p v m).getD i 0 = if i < m then digitCoeff p (ternaryDigit v i) else 0 := by
  by_cases hi : i < m <;> simp [digitCoeffs, hi]

/-- The loop takes the digits up to and including digit m, which brings the weight to omega, and
stops there (R131). -/
theorem expandDigits_of_reached {p : Params} {room m v w : Nat} (hm : m < room)
    (hbelow : w + weightOfFirst v m < p.omega) (hreach : p.omega ≤ w + weightOfFirst v (m + 1)) :
    expandDigits p room v w = some (digitCoeffs p v (m + 1)) := by
  induction room generalizing m v w with
  | zero => exact absurd hm (Nat.not_lt_zero m)
  | succ room ih =>
    have hw : w < p.omega := Nat.lt_of_le_of_lt (Nat.le_add_right _ _) hbelow
    have hv : v ≠ 0 := by
      rintro rfl
      rw [weightOfFirst_of_eq_zero] at hreach
      exact absurd hreach (Nat.not_le_of_lt hw)
    rw [weightOfFirst_succ_of_ne_zero hv, ← Nat.add_assoc] at hreach
    rw [expandDigits_succ hw hv, digitCoeffs_succ]
    cases m with
    | zero =>
      have hdone : p.omega ≤ w + digitWeight (v % 3) := hreach
      rw [expandDigits_of_omega_le hdone]; rfl
    | succ m =>
      rw [weightOfFirst_succ_of_ne_zero hv, ← Nat.add_assoc] at hbelow
      rw [ih (Nat.lt_of_succ_lt_succ hm) hbelow hreach]; rfl

/-- The loop is exhausted when the digits that fit stay below omega (R133). -/
theorem expandDigits_of_light {p : Params} {room v w : Nat}
    (hlight : w + weightOfFirst v room < p.omega) : expandDigits p room v w = none := by
  have hw : w < p.omega := Nat.lt_of_le_of_lt (Nat.le_add_right _ _) hlight
  induction room generalizing v w with
  | zero => exact expandDigits_no_room hw v
  | succ room ih =>
    obtain rfl | hv := eq_or_ne v 0
    · exact expandDigits_no_digits hw _
    · rw [weightOfFirst_succ_of_ne_zero hv, ← Nat.add_assoc] at hlight
      rw [expandDigits_succ hw hv, ih hlight (Nat.lt_of_le_of_lt (Nat.le_add_right _ _) hlight)]
      rfl

/-! ### CHASH -/

/-- The challenge of a digest whose digit m reaches omega: zero above m (R131). -/
theorem ringChallenge_of_reached {p : Params} {m v : Nat} (hm : m < p.n)
    (hbelow : weightOfFirst v m < p.omega) (hreach : p.omega ≤ weightOfFirst v (m + 1)) :
    ∃ c, ringChallenge p v = some c ∧ ∀ i < p.n,
      lane c i = if i < m + 1 then digitCoeff p (ternaryDigit v i) else 0 := by
  rw [← Nat.zero_add (weightOfFirst v _)] at hbelow hreach
  have hloop := expandDigits_of_reached hm hbelow hreach
  refine ⟨_, by rw [ringChallenge, hloop, Option.map_some], fun i hi => ?_⟩
  rw [lane_vtab _ hi, getD_digitCoeffs]

theorem ringChallenge_of_light {p : Params} {v : Nat} (hlight : weightOfFirst v p.n < p.omega) :
    ringChallenge p v = none := by
  rw [← Nat.zero_add (weightOfFirst v _)] at hlight
  rw [ringChallenge, expandDigits_of_light hlight, Option.map_none]

theorem exec_chash_of_some {rd : RegId} {s : State} {c : RingElem pSetla}
    (h : ringChallenge pSetla s.digest.toNat = some c) :
    exec (.chash rd) s = s.finishRing rd c := by
  simp only [exec, execChash, h]

/-- R133, R184: nothing is written but the bits of the fault's entry. -/
theorem exec_chash_of_none {rd : RegId} {s : State}
    (h : ringChallenge pSetla s.digest.toNat = none) :
    exec (.chash rd) s = .next (s.raiseFault .chashExhausted) := by
  simp only [exec, execChash, h]

/-- CHASH of a digest whose digit m, of the 324 it can have, brings the weight to 16 (R131). -/
theorem exec_chash_of_reached (rd : RegId) (s : State) {m : Nat} (hm : m < 324)
    (hbelow : weightOfFirst s.digest.toNat m = 15)
    (hreach : weightOfFirst s.digest.toNat (m + 1) = 16) :
    ∃ t, exec (.chash rd) s = .next t ∧
      s.WroteRing t rd (fun i =>
        if i < m + 1 then digitCoeff pSetla (ternaryDigit s.digest.toNat i) else 0) ∧
      t.env = s.env := by
  obtain ⟨c, hc, hlane⟩ := ringChallenge_of_reached (p := pSetla) (hm.trans (by decide))
    (Nat.lt_of_le_of_lt hbelow.le (by decide)) hreach.ge
  rw [exec_chash_of_some hc]
  refine finishRing_wrote s rd hlane fun i _ => ?_
  split
  · exact residue_lt pSetla q_pos _
  · exact q_pos

/-- CHASH of a digest that has fewer than 16 digits different from 1 (R133). -/
theorem exec_chash_of_light (rd : RegId) {s : State}
    (hlight : weightOfFirst s.digest.toNat 324 < 16) :
    exec (.chash rd) s = .next (s.raiseFault .chashExhausted) := by
  refine exec_chash_of_none (ringChallenge_of_light (p := pSetla) ?_)
  rwa [weightOfFirst_of_lt_pow (digest_lt_pow s.digest) (by decide)]

/-- The FD form of R81: a destination and no other operand. -/
theorem joinFields_of_rs1_rs2_imm16_zero (op rd : Nat) :
    joinFields { op := op, rd := rd, rs1 := 0, rs2 := 0, imm16 := 0 } =
      BitVec.ofNat 32 (rd * 2 ^ 4 + op) := by
  rw [joinFields_of_rs2_imm16_zero, Nat.zero_mul, Nat.zero_add]

/-- Settles O26: a weight of 16 is reached by one digit, where the loop stops; without it the loop
is exhausted. -/
theorem chashWritesDigitsUntilTheWeight : Obligations.ChashWritesDigitsUntilTheWeight := by
  intro rd s
  refine ⟨fun hheavy => ?completes, fun hlight => exec_chash_of_light rd hlight,
    joinFields_of_rs1_rs2_imm16_zero 7 rd⟩
  case completes =>
    obtain ⟨m, hm, hbelow, hreach⟩ := exists_digit_reaching hheavy
    obtain ⟨t, hnext, hwrote, henv⟩ := exec_chash_of_reached rd s hm hbelow hreach
    exact ⟨m + 1, t, Nat.le_add_left 1 m, hm, hreach, hbelow, hnext, hwrote, henv⟩

end Sys2Proof.Machine
end

section
/-! PROOFS. The commands of `44_key_codec.md`: ENCODE and DECODE (R141, R142). -/

namespace Sys2Proof.Machine

/-! ### ENCODE -/

/-- A key bit times HALF is a canonical residue (R100 (f), R141). -/
theorem toNat_mul_half_lt_q (b : Bool) : b.toNat * pSetla.half < pSetla.q :=
  calc b.toNat * pSetla.half
    _ ≤ 1 * pSetla.half := Nat.mul_le_mul_right _ b.toNat_le
    _ < pSetla.q := by decide

/-- Settles O29: HALF is 16775168 under P_SETLA, so each lane fits its slot. -/
theorem encodeWritesKeyBitsTimesHalf : Obligations.EncodeWritesKeyBitsTimesHalf := by
  intro rd s
  have hcanonical : ∀ i < 1024,
      (if i < 256 then (s.key.toNat.testBit i).toNat * pSetla.half else 0) < pSetla.q := by
    intro i _
    split
    · exact toNat_mul_half_lt_q _
    · exact q_pos
  obtain ⟨t, hnext, hwrote, henv⟩ := finishRing_wrote s rd
    (fun _ hi => lane_ringEncode pSetla s.key.toNat hi) hcanonical
  exact ⟨t, hnext, hwrote, henv, joinFields_of_rs1_rs2_imm16_zero 8 rd⟩

/-! ### DECODE -/

/-- The thresholds of R142 under P_SETLA: QUART is 8387585. -/
theorem decodeBit_pSetla (v : Nat) :
    decodeBit pSetla v = decide (8387584 < v ∧ v < 25162752) :=
  (Bool.decide_and _ _).symm

/-- A zero coefficient decodes to 0, whatever QUART is. -/
theorem decodeBit_zero (p : Params) : decodeBit p 0 = false := by
  simp [decodeBit]

theorem keyOfLanes_cons (p : Params) (v : Nat) (vs : List Nat) :
    keyOfLanes p (v :: vs) = Nat.bit (decodeBit p v) (keyOfLanes p vs) := by
  rw [Nat.bit_val, Nat.add_comm]; rfl

/-- The key is read off lane by lane; beyond the list both sides are 0. -/
theorem testBit_keyOfLanes (p : Params) (vs : List Nat) (i : Nat) :
    (keyOfLanes p vs).testBit i = decodeBit p (vs.getD i 0) := by
  induction vs generalizing i with
  | nil => exact (Nat.zero_testBit i).trans (decodeBit_zero p).symm
  | cons v vs ih =>
    rw [keyOfLanes_cons]
    cases i with
    | zero => exact Nat.testBit_bit_zero _ _
    | succ i => exact (Nat.testBit_bit_succ _ _ _).trans (ih i)

/-- R142 for any parameters: bit i of the recovered key is the threshold test of lane i. -/
theorem testBit_ringDecode (p : Params) (a : RingElem p) {i : Nat} (hi : i < p.klen) :
    (ringDecode p a).testBit i = decodeBit p (lane a i) := by
  rw [ringDecode, testBit_keyOfLanes, lane, List.getD_eq_getElem?_getD, List.getElem?_take_of_lt hi,
    ← List.getD_eq_getElem?_getD]

/-- KEY after DECODE holds bit i of the recovered number, as KEY has room for all KLEN bits. -/
theorem getLsbD_setKey_ringDecode (s : State) (rs1 : RegId) {i : Nat} (hi : i < 256) :
    (s.setKey (ringDecode pSetla (s.readRing rs1))).key.getLsbD i =
      decodeBit pSetla (s.slot rs1 i) := by
  rw [State.setKey_key, BitVec.getLsbD_ofNat, decide_eq_true hi, Bool.true_and,
    testBit_ringDecode pSetla _ hi, lane_readRing]

/-- The FS form of R81: a first source and no other operand. -/
theorem joinFields_of_rd_rs2_imm16_zero (op rs1 : Nat) :
    joinFields { op := op, rd := 0, rs1 := rs1, rs2 := 0, imm16 := 0 } =
      BitVec.ofNat 32 (rs1 * 2 ^ 8 + op) := by
  rw [joinFields_of_rs2_imm16_zero, Nat.zero_mul, Nat.add_zero]

/-- Settles O30: KEY takes the 256 threshold bits, and the completion touches only BUSY and DONE. -/
theorem decodeWritesThresholdBitsToKey : Obligations.DecodeWritesThresholdBitsToKey := by
  intro rs1 s
  have hkey : ∀ i < 256, (s.setKey (ringDecode pSetla (s.readRing rs1))).complete.key.getLsbD i =
      decide (8387584 < s.slot rs1 i ∧ s.slot rs1 i < 25162752) := by
    intro i hi
    rw [State.complete_key, getLsbD_setKey_ringDecode s rs1 hi, decodeBit_pSetla]
  exact ⟨_, rfl, hkey, rfl, joinFields_of_rd_rs2_imm16_zero 9 rs1⟩

end Sys2Proof.Machine
end

section
/-! PROOFS. Fault entry (R183) and the refused transactions of the port (R200). -/

namespace Sys2Proof.Machine

/-! ### Fault entry -/

/-- R181: a word that is no command raises ILLEGAL_CMD. -/
theorem execute_of_decode_none {s : State} (h : decode s.cmd = none) :
    s.execute = .next (s.raiseFault .illegalCmd) := by
  simp only [State.execute, h]

theorem execute_of_decode_some {s : State} {i : Instr} (h : decode s.cmd = some i) :
    s.execute = exec i s := by
  simp only [State.execute, h]

/-- Settles O12: the three places that raise a fault all end in `State.raiseFault`, with the code of
their fault. -/
theorem faultEntryChangesOnlyStatus : Obligations.FaultEntryChangesOnlyStatus := by
  intro s
  refine ⟨execute_of_decode_none, ?chashExhausted, ?coeffRange, ?irq⟩
  case chashExhausted =>
    intro rd hdec hlight
    exact (execute_of_decode_some hdec).trans (exec_chash_of_light rd hlight)
  case coeffRange =>
    intro k i v hi hb he hv
    exact access_write_slot_of_ge k ⟨i, hi⟩ hb he hv
  case irq =>
    intro hie e
    simp only [State.irq, hie, Bool.and_self, Bool.or_true]

/-! ### The address map by ranges -/

/-- The addresses of data state: KEY, DIGEST and the ring window (R52, R56). -/
def DataAddr (a : Nat) : Prop :=
  (0x00040 ≤ a ∧ a < 0x00060) ∨ (0x00080 ≤ a ∧ a < 0x000C0) ∨ (0x10000 ≤ a ∧ a ≤ 0x1FFFF)

/-- The addresses of ID and PARAM_* (R52). -/
def ReadOnlyAddr (a : Nat) : Prop := a = 0x00004 ∨ (0x00010 ≤ a ∧ a < 0x00028)

/-- The gaps of the address map, and what lies beyond it (R52). -/
def UnmappedAddr (a : Nat) : Prop :=
  (0x00028 ≤ a ∧ a < 0x00040) ∨ (0x00060 ≤ a ∧ a < 0x00080) ∨ (0x000C0 ≤ a ∧ a < 0x10000) ∨
    0x1FFFF < a

theorem dataAddr_of_isData {r : PortReg} (h : r.isData = true) : DataAddr r.addr := by
  unfold DataAddr
  cases r with
  | key j => have := j.isLt; simp only [PortReg.addr]; omega
  | digest j => have := j.isLt; simp only [PortReg.addr]; omega
  | slot k i => have := k.isLt; have := i.isLt; simp only [PortReg.addr]; omega
  | _ => cases h

/-- The registers that are no data state lie in the first ten words (R52). -/
theorem addr_lt_of_not_isData {r : PortReg} (h : r.isData = false) : r.addr < 0x00028 := by
  cases r with
  | param r => cases r <;> decide
  | key | digest | slot => cases h
  | _ => decide

theorem isData_iff_dataAddr (r : PortReg) : r.isData = true ↔ DataAddr r.addr := by
  refine ⟨dataAddr_of_isData, fun hdata => ?_⟩
  by_contra h
  have hlt := addr_lt_of_not_isData (Bool.eq_false_of_not_eq_true h)
  unfold DataAddr at hdata
  omega

/-- No register lies in a gap. -/
theorem not_unmappedAddr_addr (r : PortReg) : ¬ UnmappedAddr r.addr := by
  unfold UnmappedAddr
  cases h : r.isData with
  | false => have := addr_lt_of_not_isData h; omega
  | true => have := dataAddr_of_isData h; unfold DataAddr at this; omega

theorem addr_eq_zero_iff (r : PortReg) : r = .cmd ↔ r.addr = 0x00000 := by
  refine ⟨fun h => h ▸ rfl, fun h => ?_⟩
  have hr := portReg_addr r
  rw [h] at hr
  exact (Option.some.inj hr).symm

theorem readOnly_iff_readOnlyAddr (r : PortReg) : r.readOnly = true ↔ ReadOnlyAddr r.addr := by
  unfold ReadOnlyAddr
  cases r with
  | param r => cases r <;> decide
  | key | digest | slot =>
    simp only [PortReg.readOnly, PortReg.addr, Bool.false_eq_true, false_iff]; omega
  | _ => decide

theorem portReg_isSome_of_lt : ∀ a < 0x00028, a % 4 = 0 → (portReg a).isSome = true := by decide

/-- Outside the gaps every multiple of 4 is the address of a register (R52, R61). -/
theorem exists_addr_of_mapped {a : Nat} (h4 : a % 4 = 0) (hmap : ¬ UnmappedAddr a) :
    ∃ r : PortReg, a = r.addr := by
  have hranges : a < 0x00028 ∨ DataAddr a := by unfold UnmappedAddr at hmap; unfold DataAddr; omega
  obtain hlt | ⟨hlo, hhi⟩ | ⟨hlo, hhi⟩ | ⟨hlo, hhi⟩ := hranges
  · obtain ⟨r, hr⟩ := Option.isSome_iff_exists.mp (portReg_isSome_of_lt a hlt h4)
    exact ⟨r, (addr_of_portReg hr).symm⟩
  · exact ⟨.key ⟨(a - 0x40) / 4, by omega⟩, by simp only [PortReg.addr]; omega⟩
  · exact ⟨.digest ⟨(a - 0x80) / 4, by omega⟩, by simp only [PortReg.addr]; omega⟩
  · obtain ⟨k, i, ha, -⟩ := exists_slot_addr hlo hhi h4
    exact ⟨.slot k i, ha⟩

/-! ### What the port refuses -/

/-- R73: steps 3 to 6 refuse, steps 7 and 8 do not. -/
theorem gate_eq_buserr_iff (s : State) (t : PortReq) (r : PortReg) :
    s.gate t r = .buserr ↔
      (t.isWrite = true ∧ r.readOnly = true) ∨
      (t.isWrite = true ∧ r = .cmd ∧ (s.busy = true ∨ s.err = true)) ∨
      (r.isData = true ∧ (s.busy = true ∨ (t.isWrite = true ∧ s.err = true))) := by
  unfold State.gate
  split_ifs with hreadOnly hcmd hbusy herr hrange
  · exact iff_of_true rfl (.inl hreadOnly)
  · obtain ⟨hr, hw, hstate⟩ := hcmd
    exact iff_of_true rfl (.inr (.inl ⟨hw, hr, hstate⟩))
  · obtain ⟨hdata, hb⟩ := hbusy
    exact iff_of_true rfl (.inr (.inr ⟨hdata, .inl hb⟩))
  · obtain ⟨hdata, hwe⟩ := herr
    exact iff_of_true rfl (.inr (.inr ⟨hdata, .inr hwe⟩))
  · exact iff_of_false nofun (by tauto)
  · exact iff_of_false nofun (by tauto)

theorem access_eq_buserr_iff (s : State) (t : PortReq) :
    (s.access t).2 = .buserr ↔ s.judge t = .buserr := by
  unfold State.access
  cases s.judge t <;> cases t <;> simp

/-- R55: a refusal latches nothing. -/
theorem access_state_of_buserr {s : State} {t : PortReq} (h : (s.access t).2 = .buserr) :
    (s.access t).1 = s := by
  simp only [State.access, (access_eq_buserr_iff s t).mp h]

/-- An access that steps 1 and 2 of R73 refuse. -/
theorem judge_of_no_register {s : State} {t : PortReq}
    (h : ¬ (t.size = 4 ∧ ∃ r : PortReg, t.addr = r.addr)) : s.judge t = .buserr := by
  obtain hj | ⟨r, hn, ha, -⟩ := judge_cases s t
  · exact hj
  · exact absurd ⟨hn, r, ha⟩ h

/-- The list of R200, by the checks of R73: steps 1 and 2 refuse what holds no register, and steps 3
to 6 are the rest of it. -/
theorem access_buserr_iff_listed (s : State) (t : PortReq) :
    (s.access t).2 = .buserr ↔
      (t.size ≠ 4 ∨ t.addr % 4 ≠ 0) ∨ UnmappedAddr t.addr ∨
      (t.isWrite = true ∧ ReadOnlyAddr t.addr) ∨
      (t.isWrite = true ∧ t.addr = 0x00000 ∧ (s.busy = true ∨ s.err = true)) ∨
      (DataAddr t.addr ∧ (s.busy = true ∨ (t.isWrite = true ∧ s.err = true))) := by
  rw [access_eq_buserr_iff]
  by_cases hreg : t.size = 4 ∧ ∃ r : PortReg, t.addr = r.addr
  · obtain ⟨hn, r, ha⟩ := hreg
    have h4 := (addr_legal r).1
    have hmap := not_unmappedAddr_addr r
    rw [judge_of_addr s t r hn ha, gate_eq_buserr_iff, readOnly_iff_readOnlyAddr,
      isData_iff_dataAddr, addr_eq_zero_iff, ha]
    simp only [hn, h4, hmap, ne_eq, not_true_eq_false, or_false, false_or]
  · refine iff_of_true (judge_of_no_register hreg) ?_
    by_contra hlist
    simp only [not_or, ne_eq, not_not] at hlist
    obtain ⟨⟨hn, h4⟩, hmap, -⟩ := hlist
    exact hreg ⟨hn, exists_addr_of_mapped h4 hmap⟩

/-- Settles O58: the ranges of the statement are those of the address map. -/
theorem refusedTransactionsAreThoseListed : Obligations.RefusedTransactionsAreThoseListed :=
  fun s t => ⟨access_buserr_iff_listed s t, access_state_of_buserr⟩

end Sys2Proof.Machine
end

section
/-! PROOFS. The reset of the block (R211) and the busy unit's refusals (R217). -/

namespace Sys2Proof.Machine

/-! ### The reset of the block -/

theorem statusWord_reset : State.reset.statusWord = 0 := rfl

/-! STATUS, CTRL and `irq` are computed from the block alone, so `env`, which outlives a reset, does
not show in them. -/

@[simp] theorem State.resetBlock_statusWord (s : State) :
    s.resetBlock.statusWord = State.reset.statusWord := rfl

@[simp] theorem State.resetBlock_ctrlWord (s : State) :
    s.resetBlock.ctrlWord = State.reset.ctrlWord := rfl

@[simp] theorem State.resetBlock_irq (s : State) : s.resetBlock.irq = State.reset.irq := rfl

/-- The starting state is one that a reset of the block leaves (R211). -/
theorem resetBlock_reset : State.reset.resetBlock = State.reset := rfl

/-- Settles O1: whatever state it finds, the reset leaves the block as the machine starts. -/
theorem resetClearsEveryRegister : Obligations.ResetClearsEveryRegister := by
  intro s
  have hring : ∀ k i, s.resetBlock.slot k i = 0 := fun k i =>
    (State.resetBlock_slot s k i).trans (slot_reset k i)
  have hstatus : s.resetBlock.statusWord = 0 := s.resetBlock_statusWord.trans statusWord_reset
  have hctrl : s.resetBlock.ctrlWord = 0 := s.resetBlock_ctrlWord.trans ctrlWord_reset
  have hirq : s.resetBlock.irq = false := s.resetBlock_irq.trans irq_reset
  exact ⟨hring, rfl, rfl, rfl, rfl, rfl, rfl, rfl, rfl, rfl, hstatus, hctrl, hirq, resetBlock_reset⟩

/-! ### What a busy unit refuses -/

/-- A refusal is a whole outcome: the state it finds, and `buserr` (R55). -/
theorem access_eq_of_buserr {s : State} {t : PortReq} (h : (s.access t).2 = .buserr) :
    s.access t = (s, .buserr) :=
  Prod.ext (access_state_of_buserr h) h

/-- The fifth entry of R200's list, with BUSY = 1: reads and writes alike, of any size. -/
theorem access_data_of_busy {s : State} {t : PortReq} (hb : s.busy = true)
    (hdata : DataAddr t.addr) : s.access t = (s, .buserr) :=
  access_eq_of_buserr
    ((access_buserr_iff_listed s t).mpr (.inr (.inr (.inr (.inr ⟨hdata, .inl hb⟩)))))

/-- The fourth entry of R200's list, with BUSY = 1. -/
theorem access_write_cmd_of_busy {s : State} (n : Nat) (v : Word) (hb : s.busy = true) :
    s.access (.write 0x00000 n v) = (s, .buserr) :=
  access_eq_of_buserr
    ((access_buserr_iff_listed s _).mpr (.inr (.inr (.inr (.inl ⟨rfl, rfl, .inl hb⟩)))))

/-- Settles O56, by the two entries of R200's list that name BUSY. -/
theorem busyUnitRefusesDataAndCommands : Obligations.BusyUnitRefusesDataAndCommands := by
  intro s n v hb
  refine ⟨fun a hdata => ?data, access_write_cmd_of_busy n v hb⟩
  case data =>
    exact ⟨access_data_of_busy (t := .read a n) hb hdata,
      access_data_of_busy (t := .write a n v) hb hdata⟩

end Sys2Proof.Machine
end

section
/-! PROOFS. The decoder and the encoder undo each other (R81, R88). -/

namespace Sys2Proof

/-- The word of a well-formed command holds the command's own fields (R81, R84). -/
theorem splitWord_encode {i : Instr} (h : i.wellFormed = true) :
    splitWord (encode i) = i.fields := by
  have hshape : Laws.EncodingShape.Statement i := by
    cases i with
    | add rd rs1 rs2 => exact Laws.EncodingShape.add rd rs1 rs2
    | sub rd rs1 rs2 => exact Laws.EncodingShape.sub rd rs1 rs2
    | mul rd rs1 rs2 => exact Laws.EncodingShape.mul rd rs1 rs2
    | sampleb rd imm => exact Laws.EncodingShape.sampleb rd imm
    | sampleu rd => exact Laws.EncodingShape.sampleu rd
    | compress rd rs1 => exact Laws.EncodingShape.compress rd rs1
    | chash rd => exact Laws.EncodingShape.chash rd
    | encode rd => exact Laws.EncodingShape.encode rd
    | decode rs1 => exact Laws.EncodingShape.decode rs1
  exact (hshape h).1

/-- Settles O7: what a word decodes to is read off its fields. -/
theorem encodedCommandDecodesBack : Obligations.EncodedCommandDecodesBack := fun _ h =>
  decode_eq_some_iff.mpr (splitWord_encode h)

/-- The one field that a decoded command takes over as a number has 16 bits (R84). -/
theorem wellFormed_of_decode {w : Word} {i : Instr} (h : decode w = some i) :
    i.wellFormed = true := by
  have hfields := decode_eq_some_iff.mp h
  cases i with
  | sampleb rd imm =>
    have himm : bits w 31 16 = imm := congrArg CmdFields.imm16 hfields
    exact decide_eq_true (himm ▸ bits_lt w 31 16)
  | _ => rfl

/-- Settles O8: the five fields cover the whole word. -/
theorem decodedWordEncodesBack : Obligations.DecodedWordEncodesBack := by
  intro w i h
  refine ⟨?_, wellFormed_of_decode h⟩
  rw [encode, ← decode_eq_some_iff.mp h, joinFields_splitWord]

/-- Settles O6: fourteen closed words, each evaluated by the decoder. -/
theorem writtenOutWordsDecode : Obligations.WrittenOutWordsDecode := by
  unfold Obligations.WrittenOutWordsDecode
  decide

end Sys2Proof
end

section
/-! PROOFS. CMD, STATUS, KEY and DIGEST at the port, and what the error state refuses (R26 to R30,
R53, R56, R60). -/

namespace Sys2Proof.Machine

/-! ### Reads -/

/-- What a transaction does to the state it finds, whatever it is. -/
theorem access_case (s : State) (t : PortReq) : AccessCase s t (s.access t).1 (s.access t).2 :=
  access_cases rfl

/-- A transaction that reads is refused or answers the register's word, and leaves the state (R53).
-/
theorem access_read_cases (s : State) (a n : Nat) :
    s.access (.read a n) = (s, .buserr) ∨
      ∃ r, s.access (.read a n) = (s, .data (State.readReg s r)) := by
  cases access_case s (.read a n) with
  | refused hu hr => exact .inl (Prod.ext hu hr)
  | read r _ _ hu hr => exact .inr ⟨r, Prod.ext hu hr⟩
  | range _ _ _ ht => cases ht
  | wrote _ _ ht => cases ht

/-- Settles O59, by the two answers a read can get. -/
theorem readsHaveNoSideEffect : Obligations.ReadsHaveNoSideEffect := by
  intro s a n
  obtain h | ⟨r, h⟩ := access_read_cases s a n <;> rw [h] <;> exact ⟨rfl, nofun⟩

/-! ### CMD -/

theorem access_read_cmd (s : State) : s.access (.read 0x00000 4) = (s, .data s.cmd) :=
  access_read s .cmd nofun

/-- A write of CMD is an issue, whatever the word (R28). -/
theorem access_write_cmd {s : State} (w : Word) (hb : s.busy = false) (he : s.err = false) :
    s.access (.write 0x00000 4 w) = (s.issue w, .ok) :=
  access_write s .cmd w rfl (fun _ => ⟨hb, he⟩) nofun nofun

/-- The fourth entry of R200's list. -/
theorem access_write_cmd_refused {s : State} (n : Nat) (w : Word)
    (h : s.busy = true ∨ s.err = true) :
    s.access (.write 0x00000 n w) = (s, .buserr) :=
  access_eq_of_buserr ((access_buserr_iff_listed s _).mpr (.inr (.inr (.inr (.inl ⟨rfl, rfl, h⟩)))))

/-- Settles O47. -/
theorem cmdWriteIssuesOrIsRefused : Obligations.CmdWriteIssuesOrIsRefused := fun s w =>
  ⟨access_write_cmd w, access_write_cmd_refused 4 w, access_read_cmd s⟩

/-! ### STATUS -/

theorem access_read_status (s : State) : s.access (.read 0x00008 4) = (s, .data s.statusWord) :=
  access_read s .status nofun

/-- STATUS is written in every state of the unit (R30). -/
theorem access_write_status (s : State) (v : Word) :
    s.access (.write 0x00008 4 v) = (if v.getLsbD 1 then s.clearDone else s, .ok) :=
  access_write s .status v rfl nofun nofun nofun

theorem getLsbD_statusWord_zero (s : State) : s.statusWord.getLsbD 0 = s.busy := by
  rw [getLsbD_statusWord]; simp

/-- ERRCODE stands in bits 11:8 (R30). -/
theorem getLsbD_statusWord_errcode (s : State) (j : Nat) :
    s.statusWord.getLsbD (8 + j) = s.errcode.getLsbD j := by
  have h1 : 8 + j ≠ 1 := by omega
  have h2 : 8 + j ≠ 2 := by omega
  simp [getLsbD_statusWord, h1, h2]

/-- The reserved bits read zero (R38). -/
theorem getLsbD_statusWord_reserved (s : State) {j : Nat} (h : (3 ≤ j ∧ j < 8) ∨ 12 ≤ j) :
    s.statusWord.getLsbD j = false := by
  have h0 : j ≠ 0 := by omega
  have h1 : j ≠ 1 := by omega
  have h2 : j ≠ 2 := by omega
  have hcode : (decide (8 ≤ j) && s.errcode.getLsbD (j - 8)) = false := by
    obtain ⟨-, h8⟩ | h12 := h
    · rw [decide_eq_false (by omega), Bool.false_and]
    · rw [BitVec.getLsbD_of_ge _ _ (by omega), Bool.and_false]
  simp [getLsbD_statusWord, h0, h1, h2, hcode]

/-- Settles O48, from the bits of STATUS and the effect of its write. -/
theorem statusReadsFieldsAndWriteClearsDone : Obligations.StatusReadsFieldsAndWriteClearsDone := by
  intro s v
  exact ⟨⟨s.statusWord, access_read_status s, getLsbD_statusWord_zero s, getLsbD_statusWord_one s,
    getLsbD_statusWord_two s, fun j _ => getLsbD_statusWord_errcode s j,
    fun j => getLsbD_statusWord_reserved s⟩, access_write_status s v⟩

/-! ### The words of KEY and DIGEST -/

/-- Bit b of word j of a wide register is its bit 32j + b (R60). -/
theorem getLsbD_getWord {n : Nat} (x : BitVec n) (j : Nat) {b : Nat} (hb : b < 32) :
    (getWord x j).getLsbD b = x.getLsbD (32 * j + b) := by
  simp [getWord, hb]

/-- The bits that replacing word j of a wide register clears before it writes: bits 32j to 32j + 31.
-/
theorem getLsbD_wordMask {n b : Nat} (j : Nat) (hb : b < n) :
    ((0xFFFFFFFF#32).setWidth n <<< (32 * j)).getLsbD b = decide (b / 32 = j) := by
  rw [show (0xFFFFFFFF#32) = BitVec.allOnes 32 from rfl, BitVec.getLsbD_shiftLeft,
    BitVec.getLsbD_setWidth, BitVec.getLsbD_allOnes, decide_eq_true hb, Bool.true_and,
    ← decide_not, ← Bool.decide_and, ← Bool.decide_and]
  exact decide_eq_decide.mpr (by omega)

/-- Replacing word j takes the word's bits there and keeps every other bit (R26, R27, R60). -/
theorem getLsbD_putWord {n b : Nat} (x : BitVec n) (j : Nat) (v : Word) (hb : b < n) :
    (putWord x j v).getLsbD b = if b / 32 = j then v.getLsbD (b % 32) else x.getLsbD b := by
  rw [putWord, BitVec.getLsbD_or, BitVec.getLsbD_and, BitVec.getLsbD_not, getLsbD_wordMask j hb,
    BitVec.getLsbD_shiftLeft, BitVec.getLsbD_setWidth]
  split
  case isTrue h =>
    have hlow : ¬ b < 32 * j := by omega
    have hsub : b - 32 * j = b % 32 := by omega
    have hwidth : b % 32 < n := by omega
    simp [h, hlow, hb, hsub, hwidth]
  case isFalse h =>
    obtain hlt | hge : b < 32 * j ∨ 32 ≤ b - 32 * j := by omega
    · simp [h, hlt, hb]
    · simp [h, hb, BitVec.getLsbD_of_ge v _ hge]

theorem access_read_key {s : State} (j : Fin 8) (hb : s.busy = false) :
    s.access (.read (PortReg.key j).addr 4) = (s, .data (getWord s.key j)) :=
  access_read s (.key j) fun _ => hb

theorem access_write_key {s : State} (j : Fin 8) (v : Word) (hb : s.busy = false)
    (he : s.err = false) :
    s.access (.write (PortReg.key j).addr 4 v) = (s.setKeyWord j v, .ok) :=
  access_write s (.key j) v rfl nofun (fun _ => ⟨hb, he⟩) nofun

theorem access_read_digest {s : State} (j : Fin 16) (hb : s.busy = false) :
    s.access (.read (PortReg.digest j).addr 4) = (s, .data (getWord s.digest j)) :=
  access_read s (.digest j) fun _ => hb

theorem access_write_digest {s : State} (j : Fin 16) (v : Word) (hb : s.busy = false)
    (he : s.err = false) :
    s.access (.write (PortReg.digest j).addr 4 v) = (s.setDigestWord j v, .ok) :=
  access_write s (.digest j) v rfl nofun (fun _ => ⟨hb, he⟩) nofun

/-- Settles O53, by the bits of a word read and of a word replaced. -/
theorem keyWordWriteAndRead : Obligations.KeyWordWriteAndRead := by
  intro s j v hj hb
  refine ⟨⟨_, access_read_key ⟨j, hj⟩ hb, fun b => getLsbD_getWord s.key j⟩, fun he => ?write⟩
  case write =>
    exact ⟨_, access_write_key ⟨j, hj⟩ v hb he, fun b => getLsbD_putWord s.key j v, rfl⟩

/-- Settles O54: DIGEST is a wide register as KEY is. -/
theorem digestWordWriteAndRead : Obligations.DigestWordWriteAndRead := by
  intro s j v hj hb
  refine ⟨⟨_, access_read_digest ⟨j, hj⟩ hb, fun b => getLsbD_getWord s.digest j⟩, fun he => ?write⟩
  case write =>
    exact ⟨_, access_write_digest ⟨j, hj⟩ v hb he, fun b => getLsbD_putWord s.digest j v, rfl⟩

theorem toNat_getWord {n : Nat} (x : BitVec n) (j : Nat) :
    (getWord x j).toNat = x.toNat / 2 ^ (32 * j) % 2 ^ 32 := by
  rw [getWord, BitVec.toNat_setWidth, BitVec.toNat_ushiftRight, Nat.shiftRight_eq_div_pow]

/-- The lowest k words of a wide register sum to its value modulo 2^(32k) (R27). -/
theorem sum_getWord {n : Nat} (x : BitVec n) (k : Nat) :
    ∑ j ∈ Finset.range k, (getWord x j).toNat * 2 ^ (32 * j) = x.toNat % 2 ^ (32 * k) := by
  induction k with
  | zero => rw [Finset.sum_range_zero, Nat.mul_zero, pow_zero, Nat.mod_one]
  | succ k ih =>
    rw [Finset.sum_range_succ, ih, toNat_getWord, Nat.mul_succ, pow_add, Nat.mod_mul,
      Nat.mul_comm _ (2 ^ (32 * k))]

/-- A register of k words is the sum of its words. -/
theorem toNat_eq_sum_getWord {k : Nat} (x : BitVec (32 * k)) :
    x.toNat = ∑ j ∈ Finset.range k, (getWord x j).toNat * 2 ^ (32 * j) :=
  ((sum_getWord x k).trans (Nat.mod_eq_of_lt x.isLt)).symm

/-- Settles O55: DIGEST has 16 words of 32 bits. -/
theorem digestIsTheSumOfItsWords : Obligations.DigestIsTheSumOfItsWords := fun s hb =>
  ⟨getWord s.digest, fun j hj => access_read_digest ⟨j, hj⟩ hb,
    toNat_eq_sum_getWord (k := 16) s.digest⟩

/-! ### The error state -/

/-- Settles O57, by the two entries of R200's list that name ERR. -/
theorem errorStateRefusesDataWritesAndCommands :
    Obligations.ErrorStateRefusesDataWritesAndCommands := by
  intro s n v he
  refine ⟨fun a hdata => ?data, access_write_cmd_refused n v (.inr he)⟩
  case data =>
    exact access_eq_of_buserr
      ((access_buserr_iff_listed s _).mpr (.inr (.inr (.inr (.inr ⟨hdata, .inr ⟨rfl, he⟩⟩)))))

end Sys2Proof.Machine
end

section
/-! PROOFS. The Execute step, the turns of the agents and the invariant of the block (R23, R31, R50,
R67, R189). -/

namespace Sys2Proof.Machine

/-! ### The unit's turn -/

/-- R67: Execute is enabled while BUSY = 1. -/
theorem unitTurn_of_busy {s : State} (hb : s.busy = true) : s.unitTurn = s.execute := by
  simp only [State.unitTurn, hb, if_true]

/-- What the unit's turn can do, said once: an idle unit does nothing; a busy one raises ILLEGAL_CMD
or runs its command (R67, R181, R212). -/
inductive UnitTurnCase (s t : State) : Prop where
  | idle (hb : s.busy = false) (ht : t = s)
  | illegal (hb : s.busy = true) (hd : decode s.cmd = none) (ht : t = s.raiseFault .illegalCmd)
  | runs (i : Instr) (hb : s.busy = true) (hd : decode s.cmd = some i) (hx : exec i s = .next t)

theorem unitTurn_cases {s t : State} (h : s.unitTurn = .next t) : UnitTurnCase s t := by
  cases hb : s.busy with
  | false =>
    rw [unitTurn_of_idle hb] at h
    exact .idle hb (Host.Outcome.next.inj h).symm
  | true =>
    rw [unitTurn_of_busy hb] at h
    cases hd : decode s.cmd with
    | none =>
      rw [execute_of_decode_none hd] at h
      exact .illegal hb hd (Host.Outcome.next.inj h).symm
    | some i =>
      rw [execute_of_decode_some hd] at h
      exact .runs i hb hd h

theorem unitTurn_answers (s : State) : ∃ t, s.unitTurn = .next t := by
  cases hb : s.busy with
  | false => exact ⟨s, unitTurn_of_idle hb⟩
  | true =>
    rw [unitTurn_of_busy hb]
    cases hd : decode s.cmd with
    | none => exact ⟨_, execute_of_decode_none hd⟩
    | some i => rw [execute_of_decode_some hd]; exact exec_answers i s

/-! ### The next turn of the interleaving -/

section
variable {s : State} {ts : List Turn}

theorem step_of_no_turns (h : s.env.turns = []) : step s = s.unitTurn := by
  simp only [step, State.takeTurn, h]

theorem step_of_unit (h : s.env.turns = .unit :: ts) : step s = (s.setTurns ts).unitTurn := by
  simp only [step, State.takeTurn, State.afterTurn, h, List.tail_cons]

theorem step_of_port {r : PortReq} (h : s.env.turns = .port r :: ts) :
    step s = .next ((s.setTurns ts).portStep r) := by
  simp only [step, State.takeTurn, State.afterTurn, h, List.tail_cons]

theorem step_of_hardReset (h : s.env.turns = .hardReset :: ts) :
    step s = .next (s.setTurns ts).resetBlock := by
  simp only [step, State.takeTurn, State.afterTurn, h, List.tail_cons]

theorem step_of_entropy {b : Bool} (h : s.env.turns = .entropy b :: ts) :
    step s = .next ((s.setTurns ts).setEntropyReady b) := by
  simp only [step, State.takeTurn, State.afterTurn, h, List.tail_cons]

end

/-- What a step can be, said once: the unit's turn, in a state u that differs from s in the
surroundings only; or a turn of the host, of the platform or of the oracle (R50). -/
inductive StepCase (s t : State) : Prop where
  | unit (u : State) (hu : u = { s with env := u.env })
      (hturn : s.env.turns.head?.any Turn.resets = false) (h : u.unitTurn = .next t)
  | port (r : PortReq) (ts : List Turn) (hts : s.env.turns = .port r :: ts)
      (ht : t = (s.setTurns ts).portStep r)
  | hardReset (ts : List Turn) (hts : s.env.turns = .hardReset :: ts)
      (ht : t = (s.setTurns ts).resetBlock)
  | entropy (b : Bool) (ts : List Turn) (hts : s.env.turns = .entropy b :: ts)
      (ht : t = (s.setTurns ts).setEntropyReady b)

theorem step_cases {s t : State} (h : step s = .next t) : StepCase s t := by
  match hts : s.env.turns with
  | [] => exact .unit s rfl (by rw [hts]; rfl) (step_of_no_turns hts ▸ h)
  | .unit :: ts => exact .unit (s.setTurns ts) rfl (by rw [hts]; rfl) (step_of_unit hts ▸ h)
  | .port r :: ts => exact .port r ts hts (Host.Outcome.next.inj (step_of_port hts ▸ h)).symm
  | .hardReset :: ts =>
    exact .hardReset ts hts (Host.Outcome.next.inj (step_of_hardReset hts ▸ h)).symm
  | .entropy b :: ts =>
    exact .entropy b ts hts (Host.Outcome.next.inj (step_of_entropy hts ▸ h)).symm

/-- Settles O5: only the unit's turn needs an argument, and it always answers. -/
theorem everyStepAnswersANextState : Obligations.EveryStepAnswersANextState := by
  intro s
  match hts : s.env.turns with
  | [] => rw [step_of_no_turns hts]; exact unitTurn_answers _
  | .unit :: ts => rw [step_of_unit hts]; exact unitTurn_answers _
  | .port r :: ts => exact ⟨_, step_of_port hts⟩
  | .hardReset :: ts => exact ⟨_, step_of_hardReset hts⟩
  | .entropy b :: ts => exact ⟨_, step_of_entropy hts⟩

/-! ### The invariant of the block -/

/-- The invariant says nothing of the surroundings. -/
theorem inv_withEnv {s : State} (e : Env) : State.Inv { s with env := e } ↔ s.Inv := Iff.rfl

theorem inv_of_eq_withEnv {s u : State} (hu : u = { s with env := u.env }) (h : s.Inv) : u.Inv := by
  rw [hu]; exact (inv_withEnv _).mpr h

/-- Settles O3. -/
theorem resetStateMeetsBlockInvariant : Obligations.ResetStateMeetsBlockInvariant := by
  have hcanonical : State.reset.Canonical := fun k i => by rw [slot_reset]; exact q_pos
  exact ⟨hcanonical, nofun, fun _ => rfl, nofun⟩

theorem resetBlock_inv (s : State) : s.resetBlock.Inv :=
  (inv_withEnv s.env).mpr resetStateMeetsBlockInvariant

/-- While the unit is not busy, the status bits fit together when the error bits do. -/
theorem statusOk_of_not_busy {s t : State} (hs : s.StatusOk) (hb : t.busy = false)
    (he : t.err = s.err) (hc : t.errcode = s.errcode) : t.StatusOk := by
  obtain ⟨-, hnone, hsome⟩ := hs
  refine ⟨fun h => ?_, ?_, ?_⟩
  · rw [hb] at h; cases h
  · rw [he, hc]; exact hnone
  · rw [he, hc]; exact hsome

/-- The entry of a fault leaves the unit in error with one of the three codes (R180, R183). -/
theorem raiseFault_inv {s : State} (f : Fault) (hs : s.Inv) : (s.raiseFault f).Inv := by
  refine ⟨hs.1, nofun, nofun, fun _ => ?_⟩
  cases f with
  | illegalCmd => exact .inl rfl
  | chashExhausted => exact .inr (.inl rfl)
  | coeffRange => exact .inr (.inr rfl)

/-- A ring register written with canonical residues stays canonical (R100 (f)). -/
theorem setRing_canonical {s : State} (rd : RegId) {v : RingElem pSetla} (hs : s.Canonical)
    (hv : ∀ j < 1024, lane v j < pSetla.q) : (s.setRing rd v).Canonical := by
  intro k i
  by_cases hk : k = rd
  · subst hk
    obtain hi | hi := Nat.lt_or_ge i 1024
    · rw [slot_setRing_of_lt s k v hi (lt_width_of_lt_q (hv i hi))]
      exact hv i hi
    · rw [slot_of_le _ _ hi]
      exact q_pos
  · rw [slot_setRing_ne s v i hk]
    exact hs k i

theorem exec_keeps_inv {i : Instr} {s t : State} (hs : s.Inv) (h : exec i s = .next t) : t.Inv := by
  obtain ⟨hcanonical, hstatus⟩ := hs
  cases exec_cases h with
  | wrote rd v _ _ hv ht =>
    subst ht
    exact ⟨setRing_canonical rd hcanonical hv, statusOk_of_not_busy hstatus rfl rfl rfl⟩
  | sampled rd v _ _ _ hv ht =>
    subst ht
    exact ⟨setRing_canonical rd hcanonical hv, statusOk_of_not_busy hstatus rfl rfl rfl⟩
  | waits _ _ ht => exact ht ▸ ⟨hcanonical, hstatus⟩
  | wroteKey _ v _ ht =>
    subst ht
    exact ⟨hcanonical, statusOk_of_not_busy hstatus rfl rfl rfl⟩
  | exhausted _ _ ht => exact ht ▸ raiseFault_inv _ ⟨hcanonical, hstatus⟩

theorem unitTurn_keeps_inv {s t : State} (hs : s.Inv) (h : s.unitTurn = .next t) : t.Inv := by
  cases unitTurn_cases h with
  | idle _ ht => exact ht ▸ hs
  | illegal _ _ ht => exact ht ▸ raiseFault_inv _ hs
  | runs i _ _ hx => exact exec_keeps_inv hs hx

/-- A slot written with a value below q stays canonical (R58). -/
theorem setSlot_canonical {s : State} (k : RegId) (i : Fin 1024) {v : Word} (hs : s.Canonical)
    (hv : v.toNat < pSetla.q) : (s.setSlot k i (v.setWidth 25)).Canonical := by
  intro k' i'
  by_cases h : k' ≠ k ∨ i' ≠ i
  · rw [slot_setSlot_ne s k k' i i' _ h]
    exact hs k' i'
  · obtain ⟨rfl, rfl⟩ : k' = k ∧ i' = i := by tauto
    rw [slot_setSlot_of_lt_q s k' i hv]
    exact hv

/-- A write that the checks of R73 let pass keeps the invariant. -/
theorem writeReg_keeps_inv {s : State} {r : PortReg} {v : Word} (hs : s.Inv)
    (hc : r = .cmd → s.busy = false ∧ s.err = false) (hq : r.isSlot = true → v.toNat < pSetla.q) :
    (s.writeReg r v).Inv := by
  obtain ⟨hcanonical, hbusy, hcodes⟩ := hs
  cases r with
  | cmd => exact ⟨hcanonical, fun _ => ⟨rfl, (hc rfl).2⟩, hcodes⟩
  | status =>
    simp only [State.writeReg]
    split
    · exact ⟨hcanonical, fun hb => ⟨rfl, (hbusy hb).2⟩, hcodes⟩
    · exact ⟨hcanonical, hbusy, hcodes⟩
  | ctrl =>
    simp only [State.writeReg]
    split
    · exact resetBlock_inv s
    · exact ⟨hcanonical, hbusy, hcodes⟩
  | slot k i => exact ⟨setSlot_canonical k i hcanonical (hq rfl), hbusy, hcodes⟩
  | id | param | key | digest => exact ⟨hcanonical, hbusy, hcodes⟩

theorem access_keeps_inv {s : State} (t : PortReq) (hs : s.Inv) : (s.access t).1.Inv := by
  cases access_case s t with
  | refused hu _ => rw [hu]; exact hs
  | range _ _ _ _ _ _ _ hu _ => rw [hu]; exact raiseFault_inv _ hs
  | read _ _ _ hu _ => rw [hu]; exact hs
  | wrote r v _ _ hc _ hq hu _ => rw [hu]; exact writeReg_keeps_inv hs hc hq

/-- Settles O4, agent by agent: the surroundings are not in the invariant, so it holds after the
turn is taken off the list, and what each agent does keeps it. -/
theorem stepKeepsBlockInvariant : Obligations.StepKeepsBlockInvariant := by
  intro s t hs h
  cases step_cases h with
  | unit u hu _ hturn => exact unitTurn_keeps_inv (inv_of_eq_withEnv hu hs) hturn
  | port r ts _ ht =>
    have hkept : ((s.setTurns ts).access r).1.Inv := access_keeps_inv r ((inv_withEnv _).mpr hs)
    exact ht ▸ hkept
  | hardReset _ _ ht => exact ht ▸ resetBlock_inv _
  | entropy _ _ _ ht => exact ht ▸ hs

end Sys2Proof.Machine
end

section
/-! PROOFS. What each agent's turn does (R35, R50, R66, R67, R114, R181, R189, R210): resets, the
pending command, and the error state. -/

namespace Sys2Proof.Machine

/-! ### The turn of the host -/

/-- What a register reads does not depend on the turns to come. -/
theorem readReg_setTurns (s : State) (ts : List Turn) (r : PortReg) :
    (s.setTurns ts).readReg r = s.readReg r := by
  cases r <;> rfl

theorem writeReg_setTurns (s : State) (ts : List Turn) (r : PortReg) (v : Word) :
    (s.setTurns ts).writeReg r v = (s.writeReg r v).setTurns ts := by
  cases r with
  | status | ctrl => simp only [State.writeReg]; split <;> rfl
  | _ => rfl

/-- A transaction neither reads nor writes the turns to come. -/
theorem access_setTurns (s : State) (ts : List Turn) (t : PortReq) :
    (s.setTurns ts).access t = ((s.access t).1.setTurns ts, (s.access t).2) := by
  have hjudge : (s.setTurns ts).judge t = s.judge t := rfl
  simp only [State.access, hjudge]
  cases s.judge t with
  | buserr | coeffRange => rfl
  | perform r => cases t <;> simp only [readReg_setTurns, writeReg_setTurns]

theorem writeReg_env (s : State) (r : PortReg) (v : Word) : (s.writeReg r v).env = s.env := by
  cases r with
  | status | ctrl => simp only [State.writeReg]; split <;> rfl
  | _ => rfl

/-- A transaction is the block's affair: the surroundings stay as they are. -/
theorem access_env (s : State) (t : PortReq) : (s.access t).1.env = s.env := by
  cases access_case s t with
  | refused hu _ => rw [hu]
  | range _ _ _ _ _ _ _ hu _ => rw [hu, State.raiseFault_env]
  | read _ _ _ hu _ => rw [hu]
  | wrote r v _ _ _ _ _ hu _ => rw [hu, writeReg_env]

/-- The state a host's turn leaves: the transaction's, with the turn used up and the response added.
-/
theorem portStep_setTurns (s : State) (ts : List Turn) (t : PortReq) :
    (s.setTurns ts).portStep t = { (s.access t).1 with
      env := { s.env with turns := ts, responses := (s.access t).2 :: s.env.responses } } := by
  rw [State.portStep, access_setTurns, State.respond, State.setTurns, access_env]

/-- Settles O60. -/
theorem hostTurnPerformsOneTransaction : Obligations.HostTurnPerformsOneTransaction :=
  fun s t ts h => ⟨_, step_of_port h, _, portStep_setTurns s ts t, rfl, rfl, rfl, rfl⟩

/-! ### Resets -/

/-- The transaction that resets is the write of CTRL with bit 31 set (R35, R189). -/
theorem eq_of_port_resets {r : PortReq} (h : (Turn.port r).resets = true) :
    ∃ v, r = .write 0x0000C 4 v ∧ v.getLsbD 31 = true := by
  cases r with
  | read => cases h
  | write a n v =>
    simp only [Turn.resets, Bool.and_eq_true, beq_iff_eq] at h
    obtain ⟨⟨rfl, rfl⟩, h31⟩ := h
    exact ⟨v, rfl, h31⟩

/-- The soft reset is performed in every state of the unit (R35). -/
theorem access_write_ctrl_reset (s : State) {v : Word} (h : v.getLsbD 31 = true) :
    s.access (.write 0x0000C 4 v) = (s.resetBlock, .ok) := by
  rw [access_write_ctrl, if_pos h]

/-- Settles O2: both resets are `State.resetBlock` in the state where the turn is used up. -/
theorem hardAndSoftResetAgree : Obligations.HardAndSoftResetAgree := by
  intro s ts v h31
  refine ⟨fun hts => step_of_hardReset hts, fun hts => ?soft⟩
  case soft =>
    rw [step_of_port hts, portStep_setTurns, access_write_ctrl_reset s h31]
    rfl

/-! ### The pending command -/

/-- Settles O10. -/
theorem stepRunsThePendingCommand : Obligations.StepRunsThePendingCommand := by
  intro s i hb hd
  refine ⟨fun hts => ?empty, fun ts hts => ?unit⟩
  case empty => rw [step_of_no_turns hts, unitTurn_of_busy hb, execute_of_decode_some hd]
  case unit =>
    rw [step_of_unit hts, unitTurn_of_busy (s := s.setTurns ts) hb,
      execute_of_decode_some (s := s.setTurns ts) hd, State.setTurns]

/-- Settles O11. -/
theorem undecodableWordRaisesIllegalCmd : Obligations.UndecodableWordRaisesIllegalCmd := by
  intro s hb hd
  refine ⟨fun hts => ?empty, fun ts hts => ?unit⟩
  case empty =>
    rw [step_of_no_turns hts, unitTurn_of_busy hb, execute_of_decode_none hd]
    rfl
  case unit =>
    rw [step_of_unit hts, unitTurn_of_busy (s := s.setTurns ts) hb,
      execute_of_decode_none (s := s.setTurns ts) hd]
    rfl

/-- A sampling command waits for the oracle (R114). -/
theorem exec_of_silent {i : Instr} {s : State} (hi : i.samples = true)
    (hr : s.env.entropyReady = false) : exec i s = .next s := by
  cases i with
  | sampleb rd imm => exact finishSample_stalled s rd _ hr
  | sampleu rd => exact finishSample_stalled s rd _ hr
  | _ => cases hi

/-- Settles O24: the stuck unit's turn is a sampling command that waits. -/
theorem silentOracleLeavesTheCommandPending : Obligations.SilentOracleLeavesTheCommandPending := by
  refine ⟨fun _ _ => exec_of_silent, ?stuck⟩
  case stuck =>
    rintro s ⟨hb, hr, i, hd, hi⟩
    obtain ⟨hempty, hunit⟩ := stepRunsThePendingCommand s i hb hd
    exact ⟨fun hts => (hempty hts).trans (exec_of_silent hi hr),
      fun ts hts => (hunit ts hts).trans (exec_of_silent hi hr)⟩

/-! ### What the host can change while the unit is busy or in error -/

/-- Of the block only DONE and the interrupt enables may differ. -/
def State.KeepsBlock (s t : State) : Prop :=
  t = { s with done := t.done, ieDone := t.ieDone, ieErr := t.ieErr, env := t.env }

/-- The surroundings are not the block's. -/
theorem keepsBlock_withEnv {s t : State} (e : Env) (h : s.KeepsBlock t) :
    s.KeepsBlock { t with env := e } := by
  unfold State.KeepsBlock at h ⊢
  rw [h]

/-- A unit that is busy or in error is not idle (R225). -/
theorem not_idle_of_locked {s : State} (hlocked : s.busy = true ∨ s.err = true) :
    ¬ (s.busy = false ∧ s.err = false) := by
  rintro ⟨hb, he⟩
  rw [hb, he] at hlocked
  exact absurd hlocked (by decide)

/-- R54, R73: what is left to a host that writes is STATUS and CTRL. -/
theorem writeReg_keepsBlock {s : State} {r : PortReg} {v : Word}
    (hlocked : s.busy = true ∨ s.err = true) (hc : r = .cmd → s.busy = false ∧ s.err = false)
    (hd : r.isData = true → s.busy = false ∧ s.err = false)
    (hreset : r = .ctrl → v.getLsbD 31 = false) : s.KeepsBlock (s.writeReg r v) := by
  have hopen := not_idle_of_locked hlocked
  cases r with
  | cmd => exact absurd (hc rfl) hopen
  | key | digest | slot => exact absurd (hd rfl) hopen
  | status => simp only [State.writeReg]; split <;> rfl
  | ctrl => simp only [State.writeReg, hreset rfl]; rfl
  | id | param => rfl

/-- While the unit is busy or in error, a transaction that is no reset leaves the command, the error
and all data state alone (R33, R56, R217). -/
theorem access_keepsBlock {s : State} {t : PortReq} (hlocked : s.busy = true ∨ s.err = true)
    (hreset : (Turn.port t).resets = false) : s.KeepsBlock (s.access t).1 := by
  cases access_case s t with
  | refused hu _ => rw [hu]; rfl
  | read _ _ _ hu _ => rw [hu]; rfl
  | range _ _ _ _ _ hb he _ _ => exact absurd ⟨hb, he⟩ (not_idle_of_locked hlocked)
  | wrote r v ht _ hc hd _ hu _ =>
    rw [hu]
    refine writeReg_keepsBlock hlocked hc hd fun hr => ?_
    subst hr ht
    exact hreset

/-- The same of the host's turn. -/
theorem portStep_keepsBlock {s : State} {t : PortReq} (ts : List Turn)
    (hlocked : s.busy = true ∨ s.err = true) (hreset : (Turn.port t).resets = false) :
    s.KeepsBlock ((s.setTurns ts).portStep t) := by
  rw [portStep_setTurns]
  exact keepsBlock_withEnv _ (access_keepsBlock hlocked hreset)

/-- Settles O13: what is left are the host's turn and the oracle's. -/
theorem onlyExecuteOrResetEndsAPendingCommand :
    Obligations.OnlyExecuteOrResetEndsAPendingCommand := by
  intro s t h ts hb hts hunit hreset hstep
  cases h with
  | port r =>
    rw [step_of_port hts, Host.Outcome.next.injEq] at hstep
    exact hstep ▸ portStep_keepsBlock ts (.inl hb) hreset
  | entropy b =>
    rw [step_of_entropy hts, Host.Outcome.next.injEq] at hstep
    exact hstep ▸ rfl
  | unit => exact absurd rfl hunit
  | hardReset => cases hreset

/-- In the error state the unit's turn changes nothing: BUSY is 0 there (R31). -/
theorem unitTurn_of_error {s : State} (hs : s.Inv) (he : s.err = true) : s.unitTurn = .next s := by
  obtain ⟨-, hbusy, -⟩ := hs
  refine unitTurn_of_idle (Bool.eq_false_of_not_eq_true fun hb => ?_)
  obtain ⟨-, hne⟩ := hbusy hb
  rw [he] at hne
  cases hne

/-- Settles O14, agent by agent. -/
theorem errorStateEndsOnlyByReset : Obligations.ErrorStateEndsOnlyByReset := by
  intro s t hs he hstep
  cases step_cases hstep with
  | unit u hu hturn hunit =>
    have hue : u.err = true := by rw [hu]; exact he
    rw [unitTurn_of_error (inv_of_eq_withEnv hu hs) hue, Host.Outcome.next.injEq] at hunit
    subst hunit
    rw [if_neg (by rw [hturn]; exact Bool.false_ne_true), hu]
  | port r ts hts ht =>
    subst ht
    have hhead : s.env.turns.head?.any Turn.resets = (Turn.port r).resets := by rw [hts]; rfl
    rw [hhead]
    split
    case isTrue hreset =>
      obtain ⟨v, rfl, h31⟩ := eq_of_port_resets hreset
      rw [portStep_setTurns, access_write_ctrl_reset s h31]
      rfl
    case isFalse hreset =>
      exact portStep_keepsBlock ts (.inr he) (Bool.eq_false_of_not_eq_true hreset)
  | hardReset ts hts ht =>
    rw [if_pos (by rw [hts]; rfl), ht]
    rfl
  | entropy b ts hts ht =>
    rw [if_neg (by rw [hts]; exact Bool.false_ne_true), ht]
    rfl

end Sys2Proof.Machine
end

section
/-! PROOFS. What every command leaves unchanged and how it ends (R100, R115), and the commands of
`41_sampler.md` (R110 to R112). -/

namespace Sys2Proof.Machine

/-! ### Rules for every command -/

/-- Settles O15, outcome by outcome. -/
theorem commandsWriteOneDestination : Obligations.CommandsWriteOneDestination := by
  intro i s t h
  have slots {rd : RegId} {v : RingElem pSetla} (hd : i.destReg = some rd) (k : RegId)
      (hk : i.destReg ≠ some k) (j : Nat) : (s.setRing rd v).slot k j = s.slot k j :=
    slot_setRing_ne s v j fun e => hk (e ▸ hd)
  cases exec_cases h with
  | wrote rd v hd _ _ ht =>
    subst ht
    exact ⟨slots hd, fun _ => rfl, rfl, rfl, rfl, rfl, rfl, rfl, rfl⟩
  | sampled rd v hd _ _ _ ht =>
    subst ht
    exact ⟨slots hd, fun _ => rfl, rfl, rfl, rfl, rfl, rfl, rfl, rfl⟩
  | waits _ _ ht =>
    subst ht
    exact ⟨fun _ _ _ => rfl, fun _ => rfl, rfl, rfl, rfl, rfl, rfl, rfl, rfl⟩
  | wroteKey rs1 v hi ht =>
    subst ht
    exact ⟨fun _ _ _ => rfl, fun hno => absurd hi (hno rs1), rfl, rfl, rfl, rfl, rfl, rfl, rfl⟩
  | exhausted _ _ ht =>
    subst ht
    exact ⟨fun _ _ _ => rfl, fun _ => rfl, rfl, rfl, rfl, rfl, rfl, rfl, rfl⟩

/-- Settles O16, outcome by outcome. -/
theorem commandsCompleteFaultOrWait : Obligations.CommandsCompleteFaultOrWait := by
  intro i s t h
  cases exec_cases h with
  | wrote _ _ _ _ _ ht => subst ht; exact .inl ⟨rfl, rfl, rfl, rfl⟩
  | sampled _ _ _ _ _ _ ht => subst ht; exact .inl ⟨rfl, rfl, rfl, rfl⟩
  | wroteKey _ _ _ ht => subst ht; exact .inl ⟨rfl, rfl, rfl, rfl⟩
  | exhausted rd hi ht => exact .inr (.inl ⟨⟨rd, hi⟩, ht⟩)
  | waits hs hr ht => exact .inr (.inr ⟨hs, hr, ht⟩)

/-- The end of a command that writes a ring register does not look at the surroundings. -/
theorem finishRing_withEnv {s t : State} {rd : RegId} {v : RingElem pSetla} (e : Env)
    (h : s.finishRing rd v = .next t) :
    State.finishRing { s with env := e } rd v = .next { t with env := e } := by
  rw [← Host.Outcome.next.inj h]
  rfl

/-- Settles O17: the operands of the seven commands are registers of the block. -/
theorem onlySamplingDependsOnTheOracle : Obligations.OnlySamplingDependsOnTheOracle := by
  intro i s t e hs h
  cases i with
  | add | sub | mul | compress | encode => exact finishRing_withEnv e h
  | sampleb | sampleu => cases hs
  | chash rd =>
    cases hc : ringChallenge pSetla s.digest.toNat with
    | none =>
      rw [exec_chash_of_none hc] at h
      rw [← Host.Outcome.next.inj h]
      exact exec_chash_of_none (s := { s with env := e }) hc
    | some c =>
      rw [exec_chash_of_some hc] at h
      exact (exec_chash_of_some (s := { s with env := e }) hc).trans (finishRing_withEnv e h)
  | decode rs1 =>
    rw [← Host.Outcome.next.inj h]
    rfl

/-! ### The oracle's answers -/

/-- Settles O23: the free value `r - lo` is answered by r. -/
theorem oracleAnswersFillTheInterval : Obligations.OracleAnswersFillTheInterval := by
  intro lo hi r hle
  constructor
  case mp =>
    rintro ⟨free, rfl⟩
    exact answerIn_mem free hle
  case mpr =>
    rintro ⟨hlo, hhi⟩
    refine ⟨(r - lo).toNat, ?_⟩
    rw [answerIn, Int.toNat_of_nonneg (Int.sub_nonneg.mpr hlo),
      Int.emod_eq_of_lt (by omega) (by omega)]
    omega

/-! ### Balanced representatives -/

/-- A value of [0, q) is its own residue (R10). -/
theorem residue_of_mem {p : Params} {v : Int} (hlo : 0 ≤ v) (hhi : v < p.q) :
    residue p v = v.toNat := by
  rw [residue, Int.emod_eq_of_lt hlo hhi]

/-- The residue of a negative value is found one q higher (R10). -/
theorem residue_add_q (p : Params) (v : Int) : residue p (v + p.q) = residue p v := by
  rw [residue, residue, Int.add_emod_right]

/-- An integer in the balanced range is the balanced representative of its residue (R10, R11). -/
theorem bal_residue {p : Params} {v : Int} (hlo : -(p.q : Int) < 2 * v) (hhi : 2 * v ≤ p.q) :
    bal p (residue p v) = v := by
  obtain hneg | hnonneg := lt_or_ge v 0
  · rw [← residue_add_q, residue_of_mem (by omega) (by omega), bal, if_neg (by omega)]
    omega
  · rw [residue_of_mem hnonneg (by omega), bal, if_pos (by omega)]
    omega

/-- The balanced representative of a canonical residue has that residue (R11). -/
theorem residue_bal {p : Params} {v : Nat} (hv : v < p.q) : residue p (bal p v) = v := by
  rw [bal]
  split
  · rw [residue_of_mem (by omega) (by omega), Int.toNat_natCast]
  · rw [residue, Int.sub_emod_right, Int.emod_eq_of_lt (by omega) (by omega), Int.toNat_natCast]

/-! ### SAMPLEB and SAMPLEU -/

/-- The end of a sampling command when the oracle answers: each lane takes the residue of its own
draw (R110, R111). -/
theorem finishSample_wrote {s : State} (rd : RegId) (r : Nat → Int)
    (hr : s.env.entropyReady = true) :
    ∃ t, s.finishSample rd (ringOfDraws pSetla r) = .next t ∧
      s.WroteRing t rd (fun i => residue pSetla (r i)) ∧
      t.env = { s.env with draws := s.env.draws + 1024 } := by
  have hlane {i : Nat} (hi : i < 1024) : lane (ringOfDraws pSetla r) i = residue pSetla (r i) :=
    lane_ringOfDraws pSetla r hi
  obtain ⟨t, hnext, ⟨hslots, hothers, hrest⟩, henv⟩ := finishSample_spec s rd (ringOfDraws pSetla r)
    (fun i hi => hlane hi ▸ lt_width_of_lt_q (residue_lt pSetla q_pos _)) hr
  exact ⟨t, hnext, ⟨fun i hi => (hslots i hi).trans (hlane hi), hothers, hrest⟩, henv⟩

/-- Settles O21: an immediate of 16 bits is far below q/2, so a draw is balanced. -/
theorem samplebWritesResiduesOfBoundedDraws : Obligations.SamplebWritesResiduesOfBoundedDraws := by
  intro rd imm s himm hr
  obtain ⟨t, hnext, hwrote, henv⟩ := finishSample_wrote rd (s.laneDraw (-(imm : Int)) imm) hr
  refine ⟨t, hnext, hwrote, fun i hi => ?draw, henv⟩
  case draw =>
    obtain ⟨hlo, hhi⟩ := laneDraw_mem s (lo := -(imm : Int)) (hi := imm) (by omega) i
    refine ⟨hlo, hhi, ?_⟩
    rw [hwrote.1 i hi]
    have hq : pSetla.q = 33550337 := rfl
    exact bal_residue (by omega) (by omega)

/-- Settles O22: a draw from [0, q - 1] is its own residue. -/
theorem sampleuWritesDrawsBelowQ : Obligations.SampleuWritesDrawsBelowQ := by
  intro rd s hr
  have hdraw (i : Nat) := laneDraw_mem s (lo := 0) (hi := 33550336) (by decide) i
  obtain ⟨t, hnext, ⟨hslots, hothers, hrest⟩, henv⟩ :=
    finishSample_wrote rd (s.laneDraw 0 33550336) hr
  refine ⟨t, hnext, ⟨fun i hi => (hslots i hi).trans ?residue, hothers, hrest⟩,
    fun i _ => hdraw i, henv⟩
  case residue =>
    obtain ⟨hlo, hhi⟩ := hdraw i
    exact residue_of_mem hlo (Int.lt_of_le_of_lt hhi (by decide))

end Sys2Proof.Machine
end

section
/-! PROOFS. What follows from the rule of CHASH (`43_challenge_hash.md`): which digests exhaust, and
the shape of a completed challenge (R131 to R134). -/

namespace Sys2Proof.Machine

/-! ### How CHASH ends -/

/-- Slot i of a challenge that consumes the first m digits of v (R131). -/
def challengeSlot (v m i : Nat) : Nat :=
  if i < m then digitCoeff pSetla (ternaryDigit v i) else 0

/-- CHASH either exhausts, on a digest that does not reach the weight 16, or completes with the
digits up to and including the one that reaches it (R131, R133). -/
inductive ChashCase (rd : RegId) (s t : State) : Prop where
  | exhausted (hlight : weightOfFirst s.digest.toNat 324 < 16)
      (ht : t = s.raiseFault .chashExhausted)
  | completed (m : Nat) (hm : m < 324) (hheavy : 16 ≤ weightOfFirst s.digest.toNat 324)
      (hbelow : weightOfFirst s.digest.toNat m = 15)
      (hreach : weightOfFirst s.digest.toNat (m + 1) = 16)
      (hwrote : s.WroteRing t rd (challengeSlot s.digest.toNat (m + 1)))

theorem chash_cases {rd : RegId} {s t : State} (h : exec (.chash rd) s = .next t) :
    ChashCase rd s t := by
  obtain hlight | hheavy := Nat.lt_or_ge (weightOfFirst s.digest.toNat 324) 16
  · rw [exec_chash_of_light rd hlight] at h
    exact .exhausted hlight (Host.Outcome.next.inj h).symm
  · obtain ⟨m, hm, hbelow, hreach⟩ := exists_digit_reaching hheavy
    obtain ⟨t', hnext, hwrote, -⟩ := exec_chash_of_reached rd s hm hbelow hreach
    rw [h, Host.Outcome.next.injEq] at hnext
    exact .completed m hm hheavy hbelow hreach (hnext ▸ hwrote)

theorem State.WroteRing.err_eq {s t : State} {rd : RegId} {f : Nat → Nat}
    (h : s.WroteRing t rd f) : t.err = s.err := by
  obtain ⟨-, -, hrest⟩ := h
  rw [hrest]

/-- Settles O27: a command that completes leaves ERR as it was. -/
theorem chashFaultsExactlyOnLightDigests : Obligations.ChashFaultsExactlyOnLightDigests := by
  intro rd s t he h
  cases chash_cases h with
  | exhausted hlight ht => exact iff_of_true (by rw [ht]; rfl) hlight
  | completed m _ hheavy _ _ hwrote =>
    exact iff_of_false (by rw [hwrote.err_eq, he]; exact Bool.false_ne_true) (Nat.not_lt.mpr hheavy)

/-! ### The coefficient of a digit -/

theorem ternaryDigit_lt (v i : Nat) : ternaryDigit v i < 3 := Nat.mod_lt _ three_pos

/-- The balanced coefficient of a digit is the digit minus 1 (R131). -/
theorem bal_digitCoeff {d : Nat} (hd : d < 3) :
    bal pSetla (digitCoeff pSetla d) = (d : Int) - 1 := by
  have hq : pSetla.q = 33550337 := rfl
  exact bal_residue (by omega) (by omega)

theorem digitCoeff_cases : ∀ d < 3, digitCoeff pSetla d = 0 ∨ digitCoeff pSetla d = 1 ∨
    digitCoeff pSetla d = 33550336 := by decide

theorem digitCoeff_eq_zero_iff : ∀ d < 3, digitCoeff pSetla d = 0 ↔ d = 1 := by decide

/-! ### The slots of a completed challenge -/

theorem challengeSlot_of_lt (v : Nat) {m i : Nat} (h : i < m) :
    challengeSlot v m i = digitCoeff pSetla (ternaryDigit v i) := if_pos h

theorem challengeSlot_of_le (v : Nat) {m i : Nat} (h : m ≤ i) : challengeSlot v m i = 0 :=
  if_neg (Nat.not_lt.mpr h)

theorem challengeSlot_cases (v m i : Nat) :
    challengeSlot v m i = 0 ∨ challengeSlot v m i = 1 ∨ challengeSlot v m i = 33550336 := by
  obtain h | h := Nat.lt_or_ge i m
  · rw [challengeSlot_of_lt v h]
    exact digitCoeff_cases _ (ternaryDigit_lt v i)
  · exact .inl (challengeSlot_of_le v h)

/-- A coefficient counts 1 towards the weight when it is nonzero (R132 (b)). -/
theorem natAbs_bal_challengeSlot (v m i : Nat) :
    (bal pSetla (challengeSlot v m i)).natAbs = (challengeSlot v m i != 0).toNat := by
  obtain h | h | h := challengeSlot_cases v m i <;> rw [h] <;> rfl

/-- The register that CHASH wrote holds the challenge in every slot, and zero past the last. -/
theorem slot_of_wroteChallenge {s t : State} {rd : RegId} {v m : Nat} (hm : m ≤ 1024)
    (hwrote : s.WroteRing t rd (challengeSlot v m)) (i : Nat) :
    t.slot rd i = challengeSlot v m i := by
  obtain hi | hi := Nat.lt_or_ge i 1024
  · exact hwrote.1 i hi
  · rw [slot_of_le t rd hi, challengeSlot_of_le v (hm.trans hi)]

/-- The digit that reaches the weight weighs. -/
theorem weighsAt_of_reached {v m : Nat} (h : weightOfFirst v m < weightOfFirst v (m + 1)) :
    weighsAt v m = true := by
  rw [weightOfFirst_succ] at h
  cases hw : weighsAt v m with
  | true => rfl
  | false => rw [hw] at h; exact absurd h (Nat.lt_irrefl _)

theorem pow_le_of_weighsAt {v m : Nat} (h : weighsAt v m = true) : 3 ^ m ≤ v := by
  rw [weighsAt, Bool.and_eq_true, decide_eq_true_eq] at h
  exact h.1

/-- The nonzero slots are the weighing digits among those consumed, when the last of these is a
digit of v, so that none of them is a leading zero (R134). -/
theorem challengeSlot_ne_zero {v m : Nat} (hv : 3 ^ m ≤ v) (i : Nat) :
    (challengeSlot v (m + 1) i != 0) = (decide (i < m + 1) && weighsAt v i) := by
  obtain hi | hi := Nat.lt_or_ge i (m + 1)
  · have hdigit : 3 ^ i ≤ v := (Nat.pow_le_pow_right three_pos (Nat.le_of_lt_succ hi)).trans hv
    rw [challengeSlot_of_lt v hi, weighsAt, decide_eq_true hi, decide_eq_true hdigit, Bool.true_and,
      Bool.true_and, Bool.eq_iff_iff, bne_iff_ne, bne_iff_ne]
    exact not_congr (digitCoeff_eq_zero_iff _ (ternaryDigit_lt v i))
  · rw [challengeSlot_of_le v hi, decide_eq_false (Nat.not_lt.mpr hi), Bool.false_and,
      bne_self_eq_false]

/-! ### Counting the nonzero slots -/

theorem filter_range_of_lt (f : Nat → Bool) {k n : Nat} (h : k ≤ n) :
    (List.range n).filter (fun i => decide (i < k) && f i) = (List.range k).filter f := by
  induction n, h using Nat.le_induction with
  | base =>
    refine List.filter_congr fun i hi => ?_
    rw [decide_eq_true (List.mem_range.mp hi), Bool.true_and]
  | succ n hn ih =>
    rw [List.range_succ, List.filter_append, ih]
    simp [Nat.not_lt.mpr hn]

theorem sum_map_toNat_eq_length_filter {α : Type} (f : α → Bool) (l : List α) :
    (l.map fun x => (f x).toNat).sum = (l.filter f).length := by
  induction l with
  | nil => rfl
  | cons x l ih =>
    rw [List.map_cons, List.sum_cons, ih, List.filter_cons]
    cases f x with
    | true => exact Nat.add_comm _ _
    | false => exact Nat.zero_add _

/-- The weight of a completed challenge is the weight of the digits it consumed (R132 (b)). -/
theorem length_filter_challengeSlot {v m : Nat} (hv : 3 ^ m ≤ v) (hm : m + 1 ≤ 1024) :
    ((List.range 1024).filter fun i => challengeSlot v (m + 1) i != 0).length =
      weightOfFirst v (m + 1) := by
  simp only [challengeSlot_ne_zero hv]
  rw [filter_range_of_lt (weighsAt v) hm, weightOfFirst]

/-- A digit adds at most 1, so m digits add at most m. -/
theorem weightOfFirst_le (v m : Nat) : weightOfFirst v m ≤ m :=
  (List.length_filter_le _ _).trans_eq List.length_range

/-- Settles O28, property by property: with m digits below the one that reaches the weight, the
slots are `challengeSlot` of m + 1 digits. -/
theorem completedChallengeIsSparse : Obligations.CompletedChallengeIsSparse := by
  intro rd s t h he
  cases chash_cases h with
  | exhausted _ ht => rw [ht] at he; cases he
  | completed m hm _ hbelow hreach hwrote =>
    have hslot := slot_of_wroteChallenge (by omega) hwrote
    have hweighs : weighsAt s.digest.toNat m = true := weighsAt_of_reached (by omega)
    have hdigits : 3 ^ m ≤ s.digest.toNat := pow_le_of_weighsAt hweighs
    have hweight := (length_filter_challengeSlot hdigits (by omega)).trans hreach
    have hcount : 16 ≤ m + 1 := hreach ▸ weightOfFirst_le s.digest.toNat (m + 1)
    simp only [hslot]
    refine ⟨challengeSlot_cases _ _, hweight, ?absolute, ⟨m + 1, hcount, hm, ?last,
      fun i => challengeSlot_of_le _, fun i hi => ?digit⟩, ?digestAlone⟩
    case absolute =>
      simp only [natAbs_bal_challengeSlot]
      rw [sum_map_toNat_eq_length_filter, hweight]
    case last =>
      rw [Nat.add_sub_cancel, ← bne_iff_ne, challengeSlot_ne_zero hdigits, hweighs,
        decide_eq_true (Nat.lt_succ_self m)]
      rfl
    case digit =>
      rw [challengeSlot_of_lt _ hi]
      exact bal_digitCoeff (ternaryDigit_lt _ i)
    case digestAlone =>
      intro s' hdigest
      rw [← hdigest] at hbelow hreach
      obtain ⟨t', hnext, hwrote', -⟩ := exec_chash_of_reached rd s' hm hbelow hreach
      refine ⟨t', hnext, fun i => ?_⟩
      rw [← hdigest]
      exact slot_of_wroteChallenge (by omega) hwrote' i

end Sys2Proof.Machine
end

section
/-! PROOFS. What follows from the rules of COMPRESS, ENCODE and DECODE (`42_compress.md`,
`44_key_codec.md`). -/

namespace Sys2Proof.Machine

/-! ### COMPRESS in closed form -/

/-- R121 without the balanced low bits: the quotient, and one more above the tie. -/
theorem compressLane_eq_ite (p : Params) (x : Nat) : compressLane p x =
    if x % 2 ^ p.d ≤ 2 ^ (p.d - 1) then x / 2 ^ p.d else x / 2 ^ p.d + 1 := by
  have hd : (2 ^ p.d : Int) ≠ 0 := pow_ne_zero _ two_ne_zero
  have hx : (x : Int) = (x / 2 ^ p.d : Nat) * 2 ^ p.d + (x % 2 ^ p.d : Nat) := by
    exact_mod_cast (Nat.div_add_mod' x (2 ^ p.d)).symm
  simp only [compressLane, lowBits]
  split
  · rw [show (x : Int) - (x % 2 ^ p.d : Nat) = (x / 2 ^ p.d : Nat) * 2 ^ p.d by linarith,
      Int.mul_ediv_cancel _ hd, Int.toNat_natCast]
  · rw [show (x : Int) - ((x % 2 ^ p.d : Nat) - 2 ^ p.d) =
          ((x / 2 ^ p.d + 1 : Nat) : Int) * 2 ^ p.d by
        push_cast at hx ⊢; linarith,
      Int.mul_ediv_cancel _ hd, Int.toNat_natCast]

theorem two_pow_eq_twice {d : Nat} (hd : 1 ≤ d) : 2 ^ d = 2 * 2 ^ (d - 1) := by
  rw [← pow_succ', Nat.sub_add_cancel hd]

/-- The closed form of R122: rounding to nearest, ties down. -/
theorem compressLane_eq_div {p : Params} (hd : 1 ≤ p.d) (x : Nat) :
    compressLane p x = (x + 2 ^ (p.d - 1) - 1) / 2 ^ p.d := by
  have htwice := two_pow_eq_twice hd
  have hpos : 0 < 2 ^ (p.d - 1) := Nat.two_pow_pos _
  have hmod : x % 2 ^ p.d < 2 ^ p.d := Nat.mod_lt _ (Nat.two_pow_pos _)
  have hx := Nat.div_add_mod' x (2 ^ p.d)
  have hsucc := Nat.add_one_mul (x / 2 ^ p.d) (2 ^ p.d)
  rw [compressLane_eq_ite, eq_comm]
  split <;> rw [Nat.div_eq_iff (Nat.two_pow_pos _)] <;> omega

/-- COMPRESS takes the value k on the k-th bucket, which a tie closes (R122). -/
theorem compressLane_eq_iff {p : Params} (hd : 1 ≤ p.d) (x k : Nat) : compressLane p x = k ↔
    k * 2 ^ p.d < x + 2 ^ (p.d - 1) ∧ x ≤ k * 2 ^ p.d + 2 ^ (p.d - 1) := by
  have htwice := two_pow_eq_twice hd
  have hpos : 0 < 2 ^ (p.d - 1) := Nat.two_pow_pos _
  rw [compressLane_eq_div hd, Nat.div_eq_iff (Nat.two_pow_pos _)]
  omega

theorem compressLane_mono {p : Params} (hd : 1 ≤ p.d) {x y : Nat} (h : y ≤ x) :
    compressLane p y ≤ compressLane p x := by
  rw [compressLane_eq_div hd, compressLane_eq_div hd]
  exact Nat.div_le_div_right (Nat.sub_le_sub_right (Nat.add_le_add_right h _) 1)

/-- CMAX is the value of the largest residue (R7, R122). -/
theorem compressLane_pred_q {p : Params} (hd : 1 ≤ p.d) : compressLane p (p.q - 1) = p.cmax :=
  compressLane_eq_div hd _

/-- Settles O31. -/
theorem compressRoundsToNearestBucket : Obligations.CompressRoundsToNearestBucket := by
  refine ⟨?configurations, by decide, by decide⟩
  case configurations =>
    rintro p ⟨-, -, -, hd, -⟩ x hx
    exact ⟨compressLane_eq_ite p x, compressLane_eq_div hd x,
      compressLane_pred_q hd ▸ compressLane_mono hd (Nat.le_sub_one_of_lt hx),
      compressLane_eq_iff hd x, fun y => compressLane_mono hd⟩

/-- The buckets under P_SETLA (R122). -/
theorem compressLane_pSetla_eq_iff (x k : Nat) :
    compressLane pSetla x = k ↔ k * 32768 < x + 16384 ∧ x ≤ k * 32768 + 16384 :=
  compressLane_eq_iff (p := pSetla) (by decide) x k

/-- Settles O32: the centre lies in its own bucket, so both clauses are about the edges of that
bucket. -/
theorem compressAgreesWithinTheMargin : Obligations.CompressAgreesWithinTheMargin := by
  refine ⟨fun k delta _ hlo _ => ?margin, fun k _ => ?edge⟩
  case margin =>
    have hcentre : compressLane pSetla (k * 32768) = k :=
      (compressLane_pSetla_eq_iff _ _).mpr (by omega)
    rw [hcentre, compressLane_pSetla_eq_iff]
    omega
  case edge =>
    have hedge : compressLane pSetla (k * 32768 + 16384) = k :=
      (compressLane_pSetla_eq_iff _ _).mpr (by omega)
    rw [hedge, ne_eq, compressLane_pSetla_eq_iff]
    omega

/-! ### DECODE on noisy lanes -/

theorem decodeBit_eq_true_iff (p : Params) (v : Nat) :
    decodeBit p v = true ↔ p.quart - 1 < v ∧ v < p.q - p.quart := by
  rw [decodeBit, Bool.and_eq_true, decide_eq_true_eq, decide_eq_true_eq]

/-- With noise within HALF around HALF, DECODE finds a 1 exactly between the thresholds (R142). -/
theorem decodeBit_one_iff {p : Params} (hq : 3 ≤ p.q) {delta : Int} (hlo : -(p.half : Int) ≤ delta)
    (hhi : delta ≤ p.half) : decodeBit p (residue p (p.half + delta)) = true ↔
      (p.quart : Int) - p.half ≤ delta ∧ delta < p.q - p.quart - p.half := by
  simp only [Params.half, Params.quart] at *
  rw [decodeBit_eq_true_iff, residue_of_mem (by omega) (by omega), Params.quart]
  omega

/-- With noise within HALF around 0, DECODE finds a 0 exactly below QUART, on the negative side at
-QUART too, as the thresholds on the canonical residue are not symmetric (R142, R143). -/
theorem decodeBit_zero_iff {p : Params} (hq : 3 ≤ p.q) {delta : Int} (hlo : -(p.half : Int) ≤ delta)
    (hhi : delta ≤ p.half) : decodeBit p (residue p delta) = false ↔
      -(p.quart : Int) ≤ delta ∧ delta < p.quart := by
  rw [← Bool.not_eq_true, decodeBit_eq_true_iff]
  simp only [Params.half, Params.quart] at *
  obtain hneg | hnonneg := lt_or_ge delta 0
  · rw [← residue_add_q, residue_of_mem (by omega) (by omega)]
    omega
  · rw [residue_of_mem hnonneg (by omega)]
    omega

/-- Bit i of KEY after a DECODE is the test of lane i (R142). -/
theorem exec_decode_key (rs1 : RegId) (s : State) : ∃ t, exec (.decode rs1) s = .next t ∧
    ∀ i < 256, t.key.getLsbD i = decodeBit pSetla (s.slot rs1 i) :=
  ⟨_, rfl, fun _ => getLsbD_setKey_ringDecode s rs1⟩

/-- Settles O33: HALF is 16775168, QUART 8387585 and q 33550337. -/
theorem decodeNoiseMarginsAreExact : Obligations.DecodeNoiseMarginsAreExact := by
  intro rs1 s i b delta hi hlo hhi hslot
  have hhalf : pSetla.half = 16775168 := rfl
  have hquart : pSetla.quart = 8387585 := rfl
  have hq : pSetla.q = 33550337 := rfl
  obtain ⟨t, hnext, hkey⟩ := exec_decode_key rs1 s
  refine ⟨t, hnext, ?_⟩
  rw [hkey i hi, hslot]
  refine ⟨?one, ?zero⟩
  case one =>
    rintro rfl
    refine (decodeBit_one_iff (p := pSetla) (by decide) (by omega) (by omega)).trans ?_
    omega
  case zero =>
    rintro rfl
    rw [Bool.toNat_false, Nat.zero_mul, Nat.cast_zero, Int.zero_add]
    refine (decodeBit_zero_iff (p := pSetla) (by decide) (by omega) (by omega)).trans ?_
    omega

/-- Settles O34: the balanced representative is noise around 0, and the test fails where that is
kept. -/
theorem decodeTestOnBalancedRepresentative : Obligations.DecodeTestOnBalancedRepresentative := by
  intro v hv
  have hhalf : pSetla.half = 16775168 := rfl
  have hquart : pSetla.quart = 8387585 := rfl
  have hq : pSetla.q = 33550337 := rfl
  have hrange : -(pSetla.half : Int) ≤ bal pSetla v ∧ bal pSetla v ≤ pSetla.half := by
    rw [bal]; split <;> omega
  have hzero := decodeBit_zero_iff (p := pSetla) (by decide) hrange.1 hrange.2
  rw [residue_bal (p := pSetla) hv] at hzero
  rw [← Bool.not_eq_false, hzero]
  omega

/-- Settles O35: an encoded bit is HALF or 0 without any noise. -/
theorem decodeRecoversTheEncodedKey : Obligations.DecodeRecoversTheEncodedKey := by
  intro ra s
  obtain ⟨t, hencode, ⟨hslots, -, -⟩, -⟩ := encodeWritesKeyBitsTimesHalf ra s
  obtain ⟨u, hdecode, hkey⟩ := exec_decode_key ra t
  refine ⟨t, u, hencode, hdecode, BitVec.eq_of_getLsbD_eq fun i hi => ?_⟩
  simp only [hkey i hi, hslots i (by omega), if_pos hi]
  cases s.key.getLsbD i <;> decide

end Sys2Proof.Machine
end

section
/-! PROOFS. The ring Z_q[x]/(x^n + 1) that the three commands of `40_ring_arith.md` compute in, and
the laws that it gives them. -/

namespace Sys2Proof.Machine

/-- x^n + 1 over the integers modulo q. -/
noncomputable def modulus (p : Params) : Polynomial (ZMod p.q) :=
  Polynomial.X ^ p.n + Polynomial.C 1

/-- Z_q[x]/(x^n + 1), as Mathlib has it. -/
abbrev QuotRing (p : Params) : Type := AdjoinRoot (modulus p)

/-- The class of x. -/
noncomputable def quotX (p : Params) : QuotRing p := AdjoinRoot.root (modulus p)

/-- The element with integer coefficients f 0, ..., f (n - 1). -/
noncomputable def ofCoeffs (p : Params) (f : Nat → Int) : QuotRing p :=
  ∑ i ∈ Finset.range p.n, (f i : QuotRing p) * quotX p ^ i

/-- The element that a ring element stands for (R13). -/
noncomputable def toQuot {p : Params} (a : RingElem p) : QuotRing p := ofCoeffs p fun i => lane a i

/-! ### Coefficients count modulo q, and determine the element -/

theorem quotX_pow (p : Params) : quotX p ^ p.n = -1 := by
  have h : AdjoinRoot.mk (modulus p) (modulus p) = 0 := AdjoinRoot.mk_self
  rw [modulus, map_add, map_pow, map_one, map_one] at h
  exact eq_neg_of_add_eq_zero_left h

theorem intCast_eq_of_mod {p : Params} {v w : Int} (h : v % p.q = w % p.q) :
    (v : QuotRing p) = (w : QuotRing p) := by
  have hz : (v : ZMod p.q) = (w : ZMod p.q) := (ZMod.intCast_eq_intCast_iff v w p.q).mpr h
  rw [← map_intCast (AdjoinRoot.of (modulus p)) v, hz, map_intCast]

theorem ofCoeffs_congr {p : Params} {f g : Nat → Int} (h : ∀ i < p.n, f i % p.q = g i % p.q) :
    ofCoeffs p f = ofCoeffs p g :=
  Finset.sum_congr rfl fun i hi => by rw [intCast_eq_of_mod (h i (Finset.mem_range.mp hi))]

/-- The polynomial of degree below n with these coefficients modulo q. -/
noncomputable def polyOfCoeffs (p : Params) (f : Nat → Int) : Polynomial (ZMod p.q) :=
  ∑ i ∈ Finset.range p.n, Polynomial.C (f i : ZMod p.q) * Polynomial.X ^ i

theorem mk_polyOfCoeffs (p : Params) (f : Nat → Int) :
    AdjoinRoot.mk (modulus p) (polyOfCoeffs p f) = ofCoeffs p f := by
  simp [polyOfCoeffs, ofCoeffs, quotX]

theorem coeff_polyOfCoeffs (p : Params) (f : Nat → Int) (i : Nat) :
    (polyOfCoeffs p f).coeff i = if i < p.n then (f i : ZMod p.q) else 0 := by
  simp [polyOfCoeffs, Polynomial.coeff_X_pow]

/-- x^n + 1 divides no polynomial of a lower degree but 0. -/
theorem polyOfCoeffs_eq_zero {p : Params} (hp : p.WellFormed) {f : Nat → Int}
    (h : ofCoeffs p f = 0) : polyOfCoeffs p f = 0 := by
  obtain ⟨hn, hq, -⟩ := hp
  have hfact : Fact (1 < p.q) := ⟨by omega⟩
  have hmonic : (modulus p).Monic := Polynomial.monic_X_pow_add_C 1 (by omega)
  rw [← mk_polyOfCoeffs, AdjoinRoot.mk_eq_zero] at h
  by_contra hne
  refine hmonic.not_dvd_of_degree_lt hne ?_ h
  rw [modulus, Polynomial.degree_X_pow_add_C (by omega), Polynomial.degree_lt_iff_coeff_zero]
  intro i hi
  rw [coeff_polyOfCoeffs, if_neg (Nat.not_lt.mpr hi)]

theorem ofCoeffs_sub (p : Params) (f g : Nat → Int) :
    ofCoeffs p (fun i => f i - g i) = ofCoeffs p f - ofCoeffs p g := by
  simp only [ofCoeffs, Int.cast_sub, sub_mul, Finset.sum_sub_distrib]

theorem ofCoeffs_add (p : Params) (f g : Nat → Int) :
    ofCoeffs p (fun i => f i + g i) = ofCoeffs p f + ofCoeffs p g := by
  simp only [ofCoeffs, Int.cast_add, add_mul, Finset.sum_add_distrib]

theorem mod_eq_of_ofCoeffs_eq {p : Params} (hp : p.WellFormed) {f g : Nat → Int}
    (h : ofCoeffs p f = ofCoeffs p g) {i : Nat} (hi : i < p.n) : f i % p.q = g i % p.q := by
  have hzero : polyOfCoeffs p (fun i => f i - g i) = 0 :=
    polyOfCoeffs_eq_zero hp (by rw [ofCoeffs_sub, h, sub_self])
  have hcoeff := coeff_polyOfCoeffs p (fun i => f i - g i) i
  rw [hzero, Polynomial.coeff_zero, if_pos hi, Int.cast_sub, eq_comm, sub_eq_zero] at hcoeff
  exact (ZMod.intCast_eq_intCast_iff _ _ _).mp hcoeff

/-- Ring elements with canonical coefficients are equal when they stand for the same element. -/
theorem eq_of_toQuot_eq {p : Params} (hp : p.WellFormed) {a b : RingElem p}
    (ha : ∀ i < p.n, lane a i < p.q) (hb : ∀ i < p.n, lane b i < p.q)
    (h : toQuot a = toQuot b) : a = b := by
  refine eq_of_lanes fun i hi => ?_
  have hmod := mod_eq_of_ofCoeffs_eq hp h hi
  rw [← Int.natCast_emod, ← Int.natCast_emod, Nat.cast_inj] at hmod
  rwa [Nat.mod_eq_of_lt (ha i hi), Nat.mod_eq_of_lt (hb i hi)] at hmod

/-! ### The product in the quotient -/

section
variable {R : Type*} [CommRing R] {x : R} {n : Nat}

/-- Coefficient k of x^i times an element with coefficients b: b moves i places up, and what passes
x^(n-1) comes back with a minus sign (R103). -/
def shiftedCoeff (n : Nat) (b : Nat → R) (i k : Nat) : R :=
  if i ≤ k then b (k - i) else -b (n + k - i)

theorem shiftedCoeff_add (n : Nat) (b : Nat → R) (i j : Nat) :
    shiftedCoeff n b i (i + j) = b j := by
  rw [shiftedCoeff, if_pos (Nat.le_add_right i j), Nat.add_sub_cancel_left]

theorem shiftedCoeff_of_lt (m : Nat) (b : Nat → R) {i j : Nat} (hj : j < i) :
    shiftedCoeff (i + m) b i j = -b (m + j) := by
  rw [shiftedCoeff, if_neg (Nat.not_le.mpr hj), Nat.add_assoc, Nat.add_sub_cancel_left]

theorem pow_mul_sum_of_pow_eq_neg_one (hx : x ^ n = -1) (b : Nat → R) {i : Nat} (hi : i ≤ n) :
    x ^ i * ∑ j ∈ Finset.range n, b j * x ^ j =
      ∑ k ∈ Finset.range n, shiftedCoeff n b i k * x ^ k := by
  obtain ⟨m, rfl⟩ := Nat.exists_eq_add_of_le hi
  have hstay (j : Nat) :
      x ^ i * (b j * x ^ j) = shiftedCoeff (i + m) b i (i + j) * x ^ (i + j) := by
    rw [shiftedCoeff_add, pow_add, mul_left_comm]
  have hwrap (j : Nat) (hj : j ∈ Finset.range i) :
      x ^ i * (b (m + j) * x ^ (m + j)) = shiftedCoeff (i + m) b i j * x ^ j := by
    rw [shiftedCoeff_of_lt m b (Finset.mem_range.mp hj), mul_left_comm, ← pow_add, ← Nat.add_assoc,
      pow_add, hx, neg_one_mul, mul_neg, neg_mul]
  calc x ^ i * ∑ j ∈ Finset.range (i + m), b j * x ^ j
    _ = ∑ j ∈ Finset.range m, x ^ i * (b j * x ^ j) +
          ∑ j ∈ Finset.range i, x ^ i * (b (m + j) * x ^ (m + j)) := by
        rw [Nat.add_comm i m, Finset.sum_range_add, mul_add, Finset.mul_sum, Finset.mul_sum]
    _ = ∑ j ∈ Finset.range i, shiftedCoeff (i + m) b i j * x ^ j +
          ∑ j ∈ Finset.range m, shiftedCoeff (i + m) b i (i + j) * x ^ (i + j) := by
        rw [add_comm, Finset.sum_congr rfl hwrap, Finset.sum_congr rfl fun j _ => hstay j]
    _ = ∑ k ∈ Finset.range (i + m), shiftedCoeff (i + m) b i k * x ^ k :=
        (Finset.sum_range_add _ _ _).symm

/-- The product of two elements, coefficient by coefficient (R103). -/
theorem sum_mul_sum_of_pow_eq_neg_one (hx : x ^ n = -1) (a b : Nat → R) :
    (∑ i ∈ Finset.range n, a i * x ^ i) * ∑ j ∈ Finset.range n, b j * x ^ j =
      ∑ k ∈ Finset.range n, (∑ i ∈ Finset.range n,
        if i ≤ k then a i * b (k - i) else -(a i * b (n + k - i))) * x ^ k := by
  have hrow (i : Nat) (hi : i ∈ Finset.range n) :
      a i * x ^ i * ∑ j ∈ Finset.range n, b j * x ^ j = ∑ k ∈ Finset.range n,
        (if i ≤ k then a i * b (k - i) else -(a i * b (n + k - i))) * x ^ k := by
    rw [mul_assoc, pow_mul_sum_of_pow_eq_neg_one hx b (Finset.mem_range.mp hi).le, Finset.mul_sum]
    refine Finset.sum_congr rfl fun k _ => ?_
    rw [← mul_assoc, shiftedCoeff, mul_ite, mul_neg]
  rw [Finset.sum_mul, Finset.sum_congr rfl hrow, Finset.sum_comm]
  exact Finset.sum_congr rfl fun k _ => (Finset.sum_mul _ _ _).symm

end

/-! ### What the ring functions compute in the quotient -/

theorem residue_cast_mod {p : Params} (hq : 0 < p.q) (v : Int) :
    (residue p v : Int) % p.q = v % p.q := by
  rw [residue_cast p hq, Int.emod_emod]

theorem toQuot_ringAdd {p : Params} (a b : RingElem p) :
    toQuot (ringAdd p a b) = toQuot a + toQuot b := by
  rw [toQuot, toQuot, toQuot, ← ofCoeffs_add]
  refine ofCoeffs_congr fun i hi => ?_
  rw [lane_ringAdd p a b hi, Int.natCast_emod, Int.emod_emod, Nat.cast_add]

theorem toQuot_ringSub {p : Params} (hq : 0 < p.q) (a b : RingElem p) :
    toQuot (ringSub p a b) = toQuot a - toQuot b := by
  rw [toQuot, toQuot, toQuot, ← ofCoeffs_sub]
  refine ofCoeffs_congr fun i hi => ?_
  rw [lane_ringSub p a b hi, residue_cast_mod hq]

theorem toQuot_ringMul {p : Params} (hq : 0 < p.q) (a b : RingElem p) :
    toQuot (ringMul p a b) = toQuot a * toQuot b := by
  have hprod := sum_mul_sum_of_pow_eq_neg_one (quotX_pow p)
    (fun i => ((lane a i : Int) : QuotRing p)) (fun i => ((lane b i : Int) : QuotRing p))
  refine (Finset.sum_congr rfl fun k hk => ?_).trans hprod.symm
  beta_reduce
  rw [lane_ringMul_eq_residue_sum p a b (Finset.mem_range.mp hk),
    intCast_eq_of_mod (residue_cast_mod hq _), Int.cast_sum]
  simp only [Int.cast_ite, Int.cast_neg, Int.cast_mul]

theorem toQuot_zero (p : Params) : toQuot (vtab p.n fun _ => 0 : RingElem p) = 0 := by
  rw [toQuot, ofCoeffs]
  refine Finset.sum_eq_zero fun i hi => ?_
  rw [lane_vtab _ (Finset.mem_range.mp hi), Nat.cast_zero, Int.cast_zero, zero_mul]

theorem toQuot_one {p : Params} (hn : 1 ≤ p.n) :
    toQuot (vtab p.n fun i => if i = 0 then 1 else 0 : RingElem p) = 1 := by
  rw [toQuot, ofCoeffs, Finset.sum_eq_single_of_mem 0 (Finset.mem_range.mpr hn)]
  · rw [lane_vtab _ hn, if_pos rfl, Nat.cast_one, Int.cast_one, pow_zero, mul_one]
  · intro i hi hne
    rw [lane_vtab _ (Finset.mem_range.mp hi), if_neg hne, Nat.cast_zero, Int.cast_zero, zero_mul]

end Sys2Proof.Machine
end

section
/-! PROOFS. The laws of the three commands (`40_ring_arith.md`, section 5), each of them a law of
the ring Z_q[x]/(x^n + 1). -/

namespace Sys2Proof.Machine

/-- A ring element of canonical residues (R10). -/
def CanonicalLanes {p : Params} (a : RingElem p) : Prop := ∀ i < p.n, lane a i < p.q

/-! ### The results of the three commands are canonical -/

theorem canonicalLanes_ringAdd {p : Params} (hq : 0 < p.q) (a b : RingElem p) :
    CanonicalLanes (ringAdd p a b) := fun _ hi => by
  rw [lane_ringAdd p a b hi]; exact Nat.mod_lt _ hq

theorem canonicalLanes_ringSub {p : Params} (hq : 0 < p.q) (a b : RingElem p) :
    CanonicalLanes (ringSub p a b) := fun _ hi => by
  rw [lane_ringSub p a b hi]; exact residue_lt p hq _

theorem canonicalLanes_ringMul {p : Params} (hq : 0 < p.q) (a b : RingElem p) :
    CanonicalLanes (ringMul p a b) := fun _ hi => by
  rw [lane_ringMul p a b hi]; exact residue_lt p hq _

theorem canonicalLanes_zero {p : Params} (hq : 0 < p.q) :
    CanonicalLanes (vtab p.n fun _ => 0 : RingElem p) := fun _ hi => by
  rw [lane_vtab _ hi]; exact hq

theorem q_pos_of_wellFormed {p : Params} (hp : p.WellFormed) : 0 < p.q := by
  obtain ⟨-, hq, -⟩ := hp
  omega

/-! ### Ring laws -/

/-- Settles O37: each law holds in the quotient, and both of its sides are canonical. -/
theorem additionAndSubtractionLaws : Obligations.AdditionAndSubtractionLaws := by
  intro p a b c hp ha
  have hq := q_pos_of_wellFormed hp
  have hca : CanonicalLanes a := fun i _ => ha i
  refine ⟨?comm, ?assoc, ?zero, ?self, ?cancel⟩
  case comm =>
    refine eq_of_toQuot_eq hp (canonicalLanes_ringAdd hq _ _) (canonicalLanes_ringAdd hq _ _) ?_
    rw [toQuot_ringAdd, toQuot_ringAdd, add_comm]
  case assoc =>
    refine eq_of_toQuot_eq hp (canonicalLanes_ringAdd hq _ _) (canonicalLanes_ringAdd hq _ _) ?_
    simp only [toQuot_ringAdd, add_assoc]
  case zero =>
    refine eq_of_toQuot_eq hp (canonicalLanes_ringAdd hq _ _) hca ?_
    rw [toQuot_ringAdd, toQuot_zero, add_zero]
  case self =>
    refine eq_of_toQuot_eq hp (canonicalLanes_ringSub hq _ _) (canonicalLanes_zero hq) ?_
    rw [toQuot_ringSub hq, toQuot_zero, sub_self]
  case cancel =>
    refine eq_of_toQuot_eq hp (canonicalLanes_ringAdd hq _ _) hca ?_
    rw [toQuot_ringAdd, toQuot_ringSub hq, sub_add_cancel]

theorem ringMul_comm {p : Params} (hp : p.WellFormed) (a b : RingElem p) :
    ringMul p a b = ringMul p b a := by
  have hq := q_pos_of_wellFormed hp
  refine eq_of_toQuot_eq hp (canonicalLanes_ringMul hq _ _) (canonicalLanes_ringMul hq _ _) ?_
  rw [toQuot_ringMul hq, toQuot_ringMul hq, mul_comm]

/-- Settles O38, as O37. -/
theorem multiplicationLaws : Obligations.MultiplicationLaws := by
  intro p a b c hp ha
  have hq := q_pos_of_wellFormed hp
  have hca : CanonicalLanes a := fun i _ => ha i
  have hmul (a b : RingElem p) : CanonicalLanes (ringMul p a b) := canonicalLanes_ringMul hq a b
  refine ⟨ringMul_comm hp a b, ?add, ?sub, ?one, ?zero⟩
  case add =>
    refine eq_of_toQuot_eq hp (hmul _ _) (canonicalLanes_ringAdd hq _ _) ?_
    simp only [toQuot_ringMul hq, toQuot_ringAdd, mul_add]
  case sub =>
    refine eq_of_toQuot_eq hp (hmul _ _) (canonicalLanes_ringSub hq _ _) ?_
    simp only [toQuot_ringMul hq, toQuot_ringSub hq, mul_sub]
  case one =>
    refine eq_of_toQuot_eq hp (hmul _ _) hca ?_
    rw [toQuot_ringMul hq, toQuot_one hp.1, mul_one]
  case zero =>
    refine eq_of_toQuot_eq hp (hmul _ _) (canonicalLanes_zero hq) ?_
    rw [toQuot_ringMul hq, toQuot_zero, mul_zero]

/-- Settles O39, as O37. -/
theorem multiplicationIsAssociative : Obligations.MultiplicationIsAssociative := by
  intro p a b c hp
  have hq := q_pos_of_wellFormed hp
  refine eq_of_toQuot_eq hp (canonicalLanes_ringMul hq _ _) (canonicalLanes_ringMul hq _ _) ?_
  simp only [toQuot_ringMul hq, mul_assoc]

/-! ### The product lane by lane -/

/-- Settles O36: in lane k a term is below x^n when i ≤ k and wraps when i > k. -/
theorem mulFoldsThePolynomialProduct : Obligations.MulFoldsThePolynomialProduct := by
  intro p a b _ k hk
  rw [lane_ringMul_eq_residue_sum p a b hk, residue, ← Finset.sum_sub_distrib]
  congr 2
  refine Finset.sum_congr rfl fun i hi => ?_
  rw [Finset.mem_range] at hi
  by_cases hik : i ≤ k
  · have hlow : k - i < p.n := by omega
    have hhigh : ¬ (i ≤ k + p.n ∧ k + p.n - i < p.n) := by omega
    rw [if_pos hik, if_pos ⟨hik, hlow⟩, if_neg hhigh, sub_zero]
  · have hhigh : i ≤ k + p.n ∧ k + p.n - i < p.n := by omega
    rw [if_neg hik, if_neg (fun h => hik h.1), if_pos hhigh, zero_sub, Nat.add_comm p.n k]

/-- Of the first factor x one term is left in every lane. -/
theorem lane_ringMul_x {p : Params} (a : RingElem p) (hn : 2 ≤ p.n) {k : Nat} (hk : k < p.n) :
    lane (ringMul p (vtab p.n fun i => if i = 1 then 1 else 0) a) k =
      residue p (if 1 ≤ k then (lane a (k - 1) : Int) else -(lane a (p.n + k - 1) : Int)) := by
  rw [lane_ringMul_eq_residue_sum p _ a hk, Finset.sum_eq_single_of_mem 1 (Finset.mem_range.mpr hn)]
  · simp only [lane_vtab _ hn, if_true, Nat.cast_one, one_mul]
  · intro i hi hne
    simp only [lane_vtab _ (Finset.mem_range.mp hi), if_neg hne, Nat.cast_zero, zero_mul, neg_zero,
      ite_self]

theorem residue_natCast_of_lt {p : Params} {v : Nat} (h : v < p.q) : residue p v = v := by
  rw [residue_of_mem (by omega) (by omega), Int.toNat_natCast]

/-- Settles O40: that term wraps in lane 0 only. -/
theorem multiplyingByXShiftsNegacyclically : Obligations.MultiplyingByXShiftsNegacyclically := by
  intro p a _ hn ha
  refine ⟨?wrap, fun i hlo hhi => ?shift⟩
  case wrap =>
    rw [lane_ringMul_x a hn (by omega), if_neg (by omega)]
    rfl
  case shift =>
    rw [lane_ringMul_x a hn hhi, if_pos hlo]
    exact residue_natCast_of_lt (ha (i - 1))

/-! ### Bounds on balanced lanes -/

/-- The balanced representative is congruent to the residue (R11). -/
theorem bal_modEq (p : Params) (v : Nat) : bal p v ≡ v [ZMOD p.q] := by
  rw [bal]
  split
  · exact Int.ModEq.refl _
  · exact Int.sub_emod_right _ _

/-- Lane k of the product before reduction, formed from balanced representatives. -/
def balancedDot (p : Params) (a b : RingElem p) (k : Nat) : Int :=
  ∑ i ∈ Finset.range p.n,
    if i ≤ k then bal p (lane a i) * bal p (lane b (k - i))
    else -(bal p (lane a i) * bal p (lane b (p.n + k - i)))

/-- R103 may be computed on balanced representatives (R11). -/
theorem lane_ringMul_eq_residue_balancedDot {p : Params} (a b : RingElem p) {k : Nat}
    (hk : k < p.n) : lane (ringMul p a b) k = residue p (balancedDot p a b k) := by
  have hterm (i j : Nat) :
      (lane a i : Int) * (lane b j : Int) ≡ bal p (lane a i) * bal p (lane b j) [ZMOD p.q] :=
    ((bal_modEq p _).mul (bal_modEq p _)).symm
  rw [lane_ringMul_eq_residue_sum p a b hk, balancedDot, residue, residue, Finset.sum_int_mod]
  conv_rhs => rw [Finset.sum_int_mod]
  congr 2
  refine Finset.sum_congr rfl fun i _ => ?_
  split
  · exact hterm i (k - i)
  · exact (hterm i (p.n + k - i)).neg

/-- A product of balanced lanes is bounded by the one factor's largest lane times the sum of the
other's absolute lanes. -/
theorem natAbs_balancedDot_le {p : Params} {a b : RingElem p} {A k : Nat} (hk : k < p.n)
    (hA : ∀ i < p.n, (bal p (lane a i)).natAbs ≤ A) : (balancedDot p b a k).natAbs ≤
      (∑ i ∈ Finset.range p.n, (bal p (lane b i)).natAbs) * A := by
  rw [Finset.sum_mul]
  refine (Int.natAbs_sum_le _ _).trans (Finset.sum_le_sum fun i hi => ?_)
  rw [Finset.mem_range] at hi
  split
  · rw [Int.natAbs_mul]
    exact Nat.mul_le_mul_left _ (hA _ (by omega))
  · rw [Int.natAbs_neg, Int.natAbs_mul]
    exact Nat.mul_le_mul_left _ (hA _ (by omega))

/-- A lane of absolute balanced value at most 1 counts only when it is nonzero. -/
theorem natAbs_bal_le_toNat {p : Params} {v : Nat} (h : (bal p v).natAbs ≤ 1) :
    (bal p v).natAbs ≤ (v != 0).toNat := by
  obtain rfl | hv := eq_or_ne v 0
  · simp [bal]
  · rw [bne_iff_ne.mpr hv]; exact h

/-- The sum of the absolute balanced lanes of a ternary element is at most its weight. -/
theorem sum_natAbs_bal_le_weight {p : Params} {b : RingElem p}
    (hb : ∀ i < p.n, (bal p (lane b i)).natAbs ≤ 1) :
    ∑ i ∈ Finset.range p.n, (bal p (lane b i)).natAbs ≤
      ((List.range p.n).filter fun i => lane b i != 0).length :=
  calc ∑ i ∈ Finset.range p.n, (bal p (lane b i)).natAbs
    _ ≤ ∑ i ∈ Finset.range p.n, (lane b i != 0).toNat :=
        Finset.sum_le_sum fun i hi => natAbs_bal_le_toNat (hb i (Finset.mem_range.mp hi))
    _ = ((List.range p.n).filter fun i => lane b i != 0).length :=
        sum_map_toNat_eq_length_filter (fun i => lane b i != 0) (List.range p.n)

/-- Settles O41: the bound on n * A * Bb keeps the balanced product from wrapping, so it is the
balanced lane itself. -/
theorem productBoundsOnBalancedLanes : Obligations.ProductBoundsOnBalancedLanes := by
  intro p a b A Bb w hp _ _ hA hB hbound
  have hq := q_pos_of_wellFormed hp
  have hsum : ∑ i ∈ Finset.range p.n, (bal p (lane b i)).natAbs ≤ p.n * Bb := by
    simpa using Finset.sum_le_card_nsmul (Finset.range p.n) _ Bb fun i hi =>
      hB i (Finset.mem_range.mp hi)
  have hdot {k : Nat} (hk : k < p.n) : (balancedDot p b a k).natAbs ≤ p.n * A * Bb :=
    calc (balancedDot p b a k).natAbs
      _ ≤ (∑ i ∈ Finset.range p.n, (bal p (lane b i)).natAbs) * A := natAbs_balancedDot_le hk hA
      _ ≤ p.n * Bb * A := Nat.mul_le_mul_right A hsum
      _ = p.n * A * Bb := Nat.mul_right_comm _ _ _
  have hlane {k : Nat} (hk : k < p.n) : bal p (lane (ringMul p a b) k) = balancedDot p b a k := by
    have hle := (hdot hk).trans hbound
    rw [ringMul_comm hp, lane_ringMul_eq_residue_balancedDot b a hk]
    exact bal_residue (by omega) (by omega)
  refine ⟨fun k hk => hlane hk ▸ hdot hk, ?sparse⟩
  case sparse =>
    rintro rfl hw k hk
    rw [hlane hk]
    exact (natAbs_balancedDot_le hk hA).trans
      (Nat.mul_le_mul_right A ((sum_natAbs_bal_le_weight hB).trans hw))

end Sys2Proof.Machine
end

section
/-! PROOFS. The surrounding software (`49_host_protocol.md`): KeyGen, the preconditions of the
calls, and why Unsigncrypt inverts Signcrypt (R155, R168, R170). -/

namespace Sys2Proof.Machine

/-! ### KeyGen -/

theorem lane_sampleBounded {p : Params} (hq : 0 < p.q) {bound : Nat} (r : Draws bound) {i : Nat}
    (hi : i < p.n) : lane (sampleBounded r : RingValue p).coeffs i = residue p (r.answer i) := by
  rw [coeffs_sampleBounded hq, lane_ringOfDraws p _ hi]

/-- The residues of the answers to `Draw(-1, 1)` (R155). -/
theorem residue_of_ternary {p : Params} (hq : 3 ≤ p.q) {v : Int} (hlo : -1 ≤ v) (hhi : v ≤ 1) :
    residue p v = 0 ∨ residue p v = 1 ∨ residue p v = p.q - 1 := by
  obtain rfl | rfl | rfl : v = 0 ∨ v = 1 ∨ v = -1 := by omega
  · exact .inl (residue_of_mem (by omega) (by omega))
  · exact .inr (.inl (residue_of_mem (by omega) (by omega)))
  · refine .inr (.inr ?_)
    rw [← residue_add_q, residue_of_mem (by omega) (by omega)]
    omega

/-- Settles O42: the three secrets are `sampleBounded(1)`, and the public key is computed from them.
-/
theorem keyGenSecretsAreTernary : Obligations.KeyGenSecretsAreTernary := by
  rintro p a rs re1 re2 ⟨-, hq, -⟩
  have hternary (r : Draws 1) (i : Nat) (hi : i < p.n) :
      lane (sampleBounded r : RingValue p).coeffs i = 0 ∨
        lane (sampleBounded r : RingValue p).coeffs i = 1 ∨
          lane (sampleBounded r : RingValue p).coeffs i = p.q - 1 := by
    obtain ⟨hlo, hhi⟩ := r.inRange i
    rw [lane_sampleBounded (by omega) r hi]
    exact residue_of_ternary hq hlo hhi
  refine ⟨fun v hv => ?secret, rfl, rfl⟩
  case secret =>
    simp only [List.mem_cons, List.not_mem_nil, or_false] at hv
    obtain rfl | rfl | rfl := hv
    · exact hternary rs
    · exact hternary re1
    · exact hternary re2

/-! ### Malformed inputs -/

/-- A ring element from outside with a wrong length or a coefficient out of range (R168). -/
def Malformed (p : Params) (r : RawRing) : Prop := r.length ≠ p.n ∨ ∃ v ∈ r, p.q ≤ v.toNat

theorem ofRaw_eq_none_iff {p : Params} (r : RawRing) :
    (RingValue.ofRaw r : Option (RingValue p)) = none ↔ Malformed p r := by
  rw [RingValue.ofRaw_eq_none, ← Bool.not_eq_true, RawRing.wellFormed_iff, Malformed]
  simp only [not_and_or, not_forall, Nat.not_lt, exists_prop, ne_eq]

theorem pubKey_ofRaw_eq_none_iff {p : Params} (k : PubKey RawRing) :
    (PubKey.ofRaw k : Option (PubKey (RingValue p))) = none ↔
      ∃ r ∈ [k.t1, k.t2], Malformed p r := by
  simp only [List.mem_cons, List.not_mem_nil, or_false, exists_eq_or_imp, exists_eq_left,
    ← ofRaw_eq_none_iff, PubKey.ofRaw]
  cases (RingValue.ofRaw k.t1 : Option (RingValue p)) <;>
    cases (RingValue.ofRaw k.t2 : Option (RingValue p)) <;> simp

theorem bundle_ofRaw_eq_none_iff {p : Params} (b : Bundle RawRing) :
    (Bundle.ofRaw b : Option (Bundle (RingValue p))) = none ↔
      ∃ r ∈ [b.z, b.c, b.x], Malformed p r := by
  simp only [List.mem_cons, List.not_mem_nil, or_false, exists_eq_or_imp, exists_eq_left,
    ← ofRaw_eq_none_iff, Bundle.ofRaw]
  cases (RingValue.ofRaw b.z : Option (RingValue p)) <;>
    cases (RingValue.ofRaw b.c : Option (RingValue p)) <;>
      cases (RingValue.ofRaw b.x : Option (RingValue p)) <;> simp

/-- The loop has other ways to end. -/
theorem signcryptLoop_ne_fatalPrecondition {p : Params} (h : HostFns p)
    (a : PublicElems (RingValue p)) (sk : SecKey (RingValue p)) (pkS pkR : PubKey (RingValue p))
    (m : Bytes) (masks : Nat → Draws p.B) (r0 : Draws p.B) (left k : Nat) :
    signcryptLoop h a sk pkS pkR m masks r0 left k ≠ .fatalPrecondition := by
  induction left generalizing k with
  | zero => exact nofun
  | succ left ih =>
    rw [signcryptLoop]
    split
    · exact nofun
    · split
      · exact nofun
      · exact ih (k + 1)

theorem unsigncrypt_ne_fatalPrecondition {p : Params} (h : HostFns p)
    (a : PublicElems (RingValue p)) (skR : SecKey (RingValue p)) (pkR pkS : PubKey (RingValue p))
    (b : Bundle (RingValue p)) : unsigncrypt h a skR pkR pkS b ≠ .fatalPrecondition := by
  simp only [unsigncrypt]
  split
  · exact nofun
  · split <;> exact nofun

theorem signcryptCall_eq_fatalPrecondition_iff {p : Params} (h : HostFns p)
    (a : PublicElems (RingValue p)) (sk : SecKey (RingValue p)) (pkS : PubKey (RingValue p))
    (pkR : PubKey RawRing) (m : Bytes) (masks : Nat → Draws p.B) (r0 : Draws p.B) :
    signcryptCall h a sk pkS pkR m masks r0 = .fatalPrecondition ↔
      (PubKey.ofRaw pkR : Option (PubKey (RingValue p))) = none := by
  rw [signcryptCall]
  cases (PubKey.ofRaw pkR : Option (PubKey (RingValue p))) with
  | none => exact iff_of_true rfl rfl
  | some k =>
    exact iff_of_false (signcryptLoop_ne_fatalPrecondition h a sk pkS k m masks r0 _ 0) nofun

theorem unsigncryptCall_eq_fatalPrecondition_iff {p : Params} (h : HostFns p)
    (a : PublicElems (RingValue p)) (skR : SecKey (RingValue p)) (pkR : PubKey (RingValue p))
    (pkS : PubKey RawRing) (b : Bundle RawRing) :
    unsigncryptCall h a skR pkR pkS b = .fatalPrecondition ↔
      (PubKey.ofRaw pkS : Option (PubKey (RingValue p))) = none ∨
        (Bundle.ofRaw b : Option (Bundle (RingValue p))) = none := by
  rw [unsigncryptCall]
  cases (PubKey.ofRaw pkS : Option (PubKey (RingValue p))) with
  | none => exact iff_of_true rfl (.inl rfl)
  | some k =>
    cases (Bundle.ofRaw b : Option (Bundle (RingValue p))) with
    | none => exact iff_of_true rfl (.inr rfl)
    | some b => exact iff_of_false (unsigncrypt_ne_fatalPrecondition h a skR pkR k b) nofun

/-- Settles O43: the checks come before the protocol, and the protocol has no such end of its own.
-/
theorem malformedInputsAreRejectedBeforeTheProtocol :
    Obligations.MalformedInputsAreRejectedBeforeTheProtocol := by
  intro p h a sk pk other b m masks r0
  refine ⟨?signcrypt, ?unsigncrypt⟩
  case signcrypt =>
    rw [signcryptCall_eq_fatalPrecondition_iff]
    exact pubKey_ofRaw_eq_none_iff other
  case unsigncrypt =>
    rw [unsigncryptCall_eq_fatalPrecondition_iff, pubKey_ofRaw_eq_none_iff,
      bundle_ofRaw_eq_none_iff]
    simp only [List.mem_cons, List.not_mem_nil, or_false, exists_eq_or_imp, exists_eq_left,
      or_assoc, Malformed]

/-! ### The host's ring elements in the quotient -/

/-- The element of Z_q[x]/(x^n + 1) that the host's ring element stands for (R171). -/
noncomputable def RingValue.quot {p : Params} (a : RingValue p) : QuotRing p := toQuot a.coeffs

theorem RingValue.eq_of_quot_eq {p : Params} (hp : p.WellFormed) {a b : RingValue p}
    (h : a.quot = b.quot) : a = b := by
  have hq := q_pos_of_wellFormed hp
  have hcoeffs := eq_of_toQuot_eq hp (fun i _ => a.lane_lt hq i) (fun i _ => b.lane_lt hq i) h
  exact RingValue.ext_lanes fun i _ => by rw [hcoeffs]

theorem RingValue.quot_add {p : Params} (a b : RingValue p) : (a.add b).quot = a.quot + b.quot := by
  rw [quot, coeffs_add, toQuot_ringAdd]; rfl

theorem RingValue.quot_sub {p : Params} (hq : 0 < p.q) (a b : RingValue p) :
    (a.sub b).quot = a.quot - b.quot := by
  rw [quot, coeffs_sub hq, toQuot_ringSub hq]; rfl

theorem RingValue.quot_mul {p : Params} (hq : 0 < p.q) (a b : RingValue p) :
    (a.mul b).quot = a.quot * b.quot := by
  rw [quot, coeffs_mul hq, toQuot_ringMul hq]; rfl

/-! ### Unsigncrypt inverts Signcrypt -/

/-- Settles O44: with t = a·s + e and z = s·c + y, the terms a·s·c of a·z and t·c cancel. -/
theorem receiverRecomputesTheCommitment : Obligations.ReceiverRecomputesTheCommitment := by
  intro p a s e c y hp
  have hq := q_pos_of_wellFormed hp
  refine RingValue.eq_of_quot_eq hp ?_
  simp only [recoverW, RingValue.quot_sub hq, RingValue.quot_mul hq, RingValue.quot_add]
  ring

/-- R170 (c): what the receiver decodes is the encoded key with the noise N on top, as the terms
a1·s'·y of the blinding and of w·s' cancel. -/
theorem unblind_eq_noise_add_encode {p : Params} (hp : p.WellFormed) (a1 : RingValue p)
    (skS skR : SecKey (RingValue p)) (c y y0 k : RingValue p) :
    (((((a1.mul skR.s).add skR.e1).mul y).add y0).add k).sub
        (((a1.mul y).sub (skS.e1.mul c)).mul skR.s) =
      (roundTripNoise skS skR c y y0).add k := by
  have hq := q_pos_of_wellFormed hp
  refine RingValue.eq_of_quot_eq hp ?_
  simp only [roundTripNoise, RingValue.quot_sub hq, RingValue.quot_mul hq, RingValue.quot_add]
  ring

/-- A key bit survives noise within HALF - QUART (R170 (c)). -/
theorem decodeBit_of_noise {p : Params} (hq : 3 ≤ p.q) (b : Bool) {delta : Int}
    (hnoise : delta.natAbs ≤ p.half - p.quart) :
    decodeBit p (residue p (delta + (b.toNat * p.half : Nat))) = b := by
  have hhalf : p.half = (p.q - 1) / 2 := rfl
  have hquart : p.quart = (p.q + 3) / 4 := rfl
  cases b with
  | true =>
    rw [Bool.toNat_true, Nat.one_mul, Int.add_comm]
    exact (decodeBit_one_iff hq (by omega) (by omega)).mpr (by omega)
  | false =>
    rw [Bool.toNat_false, Nat.zero_mul, Nat.cast_zero, Int.add_zero]
    exact (decodeBit_zero_iff hq (by omega) (by omega)).mpr (by omega)

/-- Decoding recovers an encoded key from noise within HALF - QUART in the lanes of the key. -/
theorem decode_add_encode {p : Params} (hp : p.WellFormed) (v : RingValue p) (key : BitVec p.klen)
    (hnoise : ∀ i < p.klen, (bal p (lane v.coeffs i)).natAbs ≤ p.half - p.quart) :
    (v.add (.encode key)).decode = key := by
  have hq := q_pos_of_wellFormed hp
  obtain ⟨-, hq3, -, -, -, hklen, -⟩ := hp
  refine BitVec.eq_of_getLsbD_eq fun i hi => ?_
  have hin : i < p.n := hi.trans_le hklen
  have hlane : lane (v.add (.encode key)).coeffs i =
      residue p (bal p (lane v.coeffs i) + ((key.getLsbD i).toNat * p.half : Nat)) := by
    have hmod := (bal_modEq p (lane v.coeffs i)).add_right
      (((key.getLsbD i).toNat * p.half : Nat) : Int)
    rw [RingValue.coeffs_add, lane_ringAdd p _ _ hin, RingValue.coeffs_encode hq,
      lane_ringEncode p _ hin, if_pos hi, residue, hmod, ← Nat.cast_add, ← Int.natCast_emod,
      Int.toNat_natCast]
    rfl
  rw [RingValue.decode, BitVec.getLsbD_ofNat, decide_eq_true hi, Bool.true_and,
    testBit_ringDecode p _ hi, hlane]
  exact decodeBit_of_noise hq3 _ (hnoise i hi)

/-- What one attempt of Signcrypt computes (R157). -/
theorem attempt_eqs {p : Params} {h : HostFns p} {a : PublicElems (RingValue p)}
    {sk : SecKey (RingValue p)} {pkS pkR : PubKey (RingValue p)} {m : Bytes} {key : CipherKey p}
    {r : Draws p.B} {t : Attempt p} (ht : attempt h a sk pkS pkR m key r = some t) :
    challengeHash h t.u1 t.u2 m key pkS pkR = some t.c ∧ t.z = (sk.s.mul t.c).add t.y ∧
      t.w1 = (a.a1.mul t.y).sub (sk.e1.mul t.c) ∧ t.w2 = (a.a2.mul t.y).sub (sk.e2.mul t.c) := by
  simp only [attempt, Option.map_eq_some_iff] at ht
  obtain ⟨c, hc, rfl⟩ := ht
  exact ⟨hc, rfl, rfl, rfl⟩

theorem accepted_iff {p : Params} (t : Attempt p) : t.accepted = true ↔
    withinBound p t.z = true ∧ t.u1 = t.w1.compress ∧ t.u2 = t.w2.compress := by
  rw [Attempt.accepted, Bool.and_eq_true, Bool.and_eq_true, beq_iff_eq, beq_iff_eq, and_assoc]

/-- R163 to R166, when the receiver recomputes w1 and w2, recovers the key and finds the challenge
again. -/
theorem unsigncrypt_eq_message {p : Params} {h : HostFns p} {a : PublicElems (RingValue p)}
    {skR : SecKey (RingValue p)} {pkR pkS : PubKey (RingValue p)} {b : Bundle (RingValue p)}
    {w1 w2 : RingValue p} {key : CipherKey p} {m : Bytes}
    (hw1 : recoverW a.a1 pkS.t1 b.z b.c = w1) (hw2 : recoverW a.a2 pkS.t2 b.z b.c = w2)
    (hkey : h.cipherOfKey (b.x.sub (w1.mul skR.s)).decode = key) (hm : h.plaintext b.eps key = m)
    (hc : challengeHash h w1.compress w2.compress m key pkS pkR = some b.c)
    (hz : withinBound p b.z = true) : unsigncrypt h a skR pkR pkS b = .message m := by
  simp only [unsigncrypt, hw1, hw2, hkey, hm, hc, hz, beq_self_eq_true, Bool.and_self, if_true]

/-- Settles O45: each step of the receiver gives back what the sender had. -/
theorem acceptedAttemptUnsigncryptsToTheMessage :
    Obligations.AcceptedAttemptUnsigncryptsToTheMessage := by
  intro p h a skS skR m key r r0 t hp hlawful hattempt haccepted hnoise
  obtain ⟨hc, hz, hw1, hw2⟩ := attempt_eqs hattempt
  obtain ⟨hbound, hu1, hu2⟩ := (accepted_iff t).mp haccepted
  have hrecover (a e : RingValue p) :
      recoverW a ((a.mul skS.s).add e) t.z t.c = (a.mul t.y).sub (e.mul t.c) := by
    rw [hz]
    exact receiverRecomputesTheCommitment p a skS.s e t.c t.y hp
  refine unsigncrypt_eq_message (key := key) ((hrecover _ _).trans hw1.symm)
    ((hrecover _ _).trans hw2.symm) ?key ?plaintext ?challenge hbound
  case key =>
    have hdecode : ((blinding (pubOfSec a skR) t.y (sampleBounded r0) (h.keyOfCipher key)).sub
        (t.w1.mul skR.s)).decode = h.keyOfCipher key := by
      rw [hw1, blinding, pubOfSec, unblind_eq_noise_add_encode hp, decode_add_encode hp _ _ hnoise]
    exact (congrArg h.cipherOfKey hdecode).trans (hlawful.cipherOfKey_keyOfCipher key)
  case plaintext =>
    exact congrArg (Option.getD · _) (hlawful.decrypt_encrypt m key)
  case challenge =>
    rw [← hu1, ← hu2]
    exact hc

end Sys2Proof.Machine
end
